-- ==== Sys2Proof/Word.lean ====
section
/-! DEFINITION. The widths the spec writes u8, u16 and u32 (spec/00_scope.md section 5). -/

namespace Sys2Proof

/-- `u8`: one byte of buffer memory, of the wire and of a byte register. -/
abbrev Byte := BitVec 8

/-- `u16`: the CRC and the 16-bit Battery fields. -/
abbrev Half := BitVec 16

/-- `u32`: a register-window word, an address register, a length register, an `f32` bit pattern. -/
abbrev Word := BitVec 32

end Sys2Proof
end

