-- ==== Sys2Proof/Syntax.lean ====
section
/-! DEFINITION. The instruction set: one constructor per row of spec/opcode_table.json. -/

namespace Sys2Proof

/-- The six rows of the opcode table: the four command words of R58, which take every operand from fixed registers
(R60), and the two host transactions of R69, whose operands are OFFSET and, for a write, WDATA. -/
inductive Instr where
  /-- CRC16 (R75): `compute(bytes, length) -> u16`. -/
  | crc16
  /-- PARSE (R76): `parse(data, data_len)`. -/
  | parse
  /-- FILL (R92): `fill(msg_category, payload_bytes, length)`. -/
  | fill
  /-- SERIALIZE (R93): `serialize(frame, out_buffer, out_capacity)`. -/
  | serialize
  /-- REG_READ (R103): the host reads the register at byte offset `off` of the window. -/
  | regRead (off : Nat)
  /-- REG_WRITE (R102): the host writes `wdata` to the register at byte offset `off` of the window. -/
  | regWrite (off : Nat) (wdata : Word)
  deriving DecidableEq, Repr

end Sys2Proof
end

