-- ==== Sys2Proof/WellFormed.lean ====
section
/-! DEFINITION. Which instructions the encodings of spec/30_encoding.md can express. -/

namespace Sys2Proof

/-- R69, R48: OFFSET has 9 bits and its bits [1:0] are 0. -/
def offsetWellFormed (off : Nat) : Bool := decide (off < 0x200) && decide (off % 4 = 0)

/-- The commands have no operand field (R57, R60); a transaction's offset is an aligned offset inside the window. -/
def Instr.wellFormed : Instr → Bool
  | .crc16 => true
  | .parse => true
  | .fill => true
  | .serialize => true
  | .regRead off => offsetWellFormed off
  | .regWrite off _ => offsetWellFormed off

end Sys2Proof
end

