-- ==== Sys2Proof/Decode.lean ====
section
/-! DEFINITION. Decoding and encoding of command words (R57, R58, R59) and of host transactions (R69). -/

namespace Sys2Proof

/-- The two encodings the spec has: the 32-bit word of a CMD write (R57), and the 10-bit selector of a host transaction
with the 32-bit data word beside it (R69). Neither is a sequence of bytes: the engine fetches no code (R55). -/
inductive Encoded where
  | command (word : Word)
  | transaction (sel : BitVec 10) (wdata : Word)
  deriving DecidableEq, Repr

/-- Why a word is no instruction. -/
inductive DecodeError where
  /-- R59: a command word other than the four of R58. The engine completes it with IllegalCommand. -/
  | illegalCommand (word : Word)
  /-- R69: OFFSET[1:0] is not 0. The host transaction is a host fault (R48). -/
  | misalignedOffset (off : Nat)
  deriving DecidableEq, Repr

/-- R58: the four defined command words, matched on all 32 bits. -/
def commandTable : List (Word × Instr) :=
  [(0x00000001#32, .crc16), (0x00000002#32, .parse), (0x00000003#32, .fill), (0x00000004#32, .serialize)]

/-- R58, R59: the decoder of command words, total on every 32-bit word. -/
def decodeCommand (w : Word) : Except DecodeError Instr :=
  match commandTable.lookup w with
  | some i => .ok i
  | none => .error (.illegalCommand w)

/-- R69: selector bit [9], WE. -/
def selectorWrites (sel : BitVec 10) : Bool := sel.getLsbD 9

/-- R69: selector bits [8:0], OFFSET. -/
def selectorOffset (sel : BitVec 10) : Nat := (sel.extractLsb' 0 9).toNat

/-- R69: the decoder of host transactions. A read carries no data: its data word is not looked at. -/
def decodeTransaction (sel : BitVec 10) (wdata : Word) : Except DecodeError Instr :=
  if selectorOffset sel % 4 ≠ 0 then .error (.misalignedOffset (selectorOffset sel))
  else if selectorWrites sel then .ok (.regWrite (selectorOffset sel) wdata)
  else .ok (.regRead (selectorOffset sel))

/-- The whole decoder. -/
def decode : Encoded → Except DecodeError Instr
  | .command w => decodeCommand w
  | .transaction sel wdata => decodeTransaction sel wdata

/-- R69: the selector of a transaction, WE in bit [9] and OFFSET in bits [8:0]. -/
def selectorOf (write : Bool) (off : Nat) : BitVec 10 :=
  BitVec.ofBool write ++ BitVec.ofNat 9 off

/-- The encoder, from the tables of R58 and R69. A read is encoded with a data word of 0. -/
def encode : Instr → Encoded
  | .crc16 => .command 0x00000001#32
  | .parse => .command 0x00000002#32
  | .fill => .command 0x00000003#32
  | .serialize => .command 0x00000004#32
  | .regRead off => .transaction (selectorOf false off) 0#32
  | .regWrite off wdata => .transaction (selectorOf true off) wdata

/-- An instruction's bits as spec/opcode_table.json numbers them. The table gives a host transaction its 10 selector
bits only (two whole bytes); its data word is then an operand word of zeros. A command word has 32 bits. Bits above
the row's own width must be 0. -/
def tableEncoded (nbits w : Nat) : Option Encoded :=
  if nbits ≤ 16 then
    if w < 2 ^ 10 then some (.transaction (BitVec.ofNat 10 w) 0#32) else none
  else
    if w < 2 ^ 32 then some (.command (BitVec.ofNat 32 w)) else none

/-- The instruction the decoder reads from bits numbered as spec/opcode_table.json numbers them. -/
def decodeTableWord (nbits w : Nat) : Option Instr :=
  match tableEncoded nbits w with
  | none => none
  | some e =>
    match decode e with
    | .ok i => some i
    | .error _ => none

end Sys2Proof
end

