-- ==== Sys2Proof/Config.lean ====
section
/-! DEFINITION. The build and platform parameters (spec/00_scope.md section 4) and the one free value. -/

namespace Sys2Proof

/-- R1: the header profile, fixed per build. -/
inductive HdrProfile where
  /-- 3-byte header: category, sequence, length. -/
  | minimal
  /-- 4-byte header: category, flags, sequence, length. -/
  | extended
  deriving DecidableEq, Repr

/-- R2: `MAX_PAYLOAD_SIZE` is one of 200 or 250, independent of the profile. -/
inductive MaxPayload where
  | p200
  | p250
  deriving DecidableEq, Repr

/-- R2: the number of bytes the parameter stands for. -/
def MaxPayload.size : MaxPayload → Nat
  | .p200 => 200
  | .p250 => 250

/-- A run of byte addresses `lo` to `hi`, both included. -/
structure Region where
  lo : Nat
  hi : Nat
  deriving DecidableEq, Repr

/-- The parameters of R1 to R6 and R50. They are arguments of the model: every state carries them, no step changes them.
`memAdmits` is the set MEM_ADMITS of R6, written as a list of regions (log entry 3): every set of 32-bit addresses is a
finite union of regions. `windowBases` gives the window's base address of each engine placed on the platform
(R12, R50, R118), the `k`-th one for the `k`-th engine. -/
structure Config where
  hdrProfile   : HdrProfile
  maxPayload   : MaxPayload
  catTelemetry : Byte
  catBattery   : Byte
  memAdmits    : List Region
  windowBases  : List Nat
  deriving DecidableEq, Repr

/-- R12: a register window is 512 bytes. -/
def Config.windowSize : Nat := 512

/-- R37: a window must lie outside every region where MEM_ADMITS is true. -/
def Config.windowClear (c : Config) (base : Nat) : Bool :=
  c.memAdmits.all fun r => decide (base + Config.windowSize ≤ r.lo ∨ r.hi < base)

/-- R118: each engine has its own register window, so no two windows share an address. -/
def Config.windowsApart : List Nat → Bool
  | [] => true
  | b :: bs =>
    (bs.all fun b' => decide (b + Config.windowSize ≤ b' ∨ b' + Config.windowSize ≤ b)) && Config.windowsApart bs

/-- The parameters the spec admits: R5 (CAT_BATTERY differs from CAT_TELEMETRY) and R37 (no window aliases buffer
memory). A platform outside them gets no semantics (spec/93 row 17): `step` refuses it. -/
def Config.wf (c : Config) : Bool :=
  decide (c.catBattery ≠ c.catTelemetry) && c.windowBases.all c.windowClear && Config.windowsApart c.windowBases

/-- R8: the reference configuration, the setting of the test vectors and of `State.reset` only (log entry 1). The window
base is a DESIGN CHOICE (log entry 4): the first address above the 32-bit buffer memory, all of which R8 admits but 0. -/
def Config.reference : Config :=
  { hdrProfile := .minimal, maxPayload := .p200, catTelemetry := 0x00#8, catBattery := 0x01#8,
    memAdmits := [⟨0x00000001, 0xFFFFFFFF⟩], windowBases := [0x100000000] }

/-- The configuration EXT/250 of spec/95_test_vectors.md. -/
def Config.ext250 : Config :=
  { Config.reference with hdrProfile := .extended, maxPayload := .p250 }

/-- FREE VALUE (log entry 7). R125: a register read while BUSY = 1, of any offset but STATUS and CONFIG, returns an
arbitrary 32-bit value with no law. The n-th such read of a run returns `Config.busyRead n`. -/
opaque Config.busyRead : Nat → Word

end Sys2Proof
end

