-- ==== Sys2Proof/Machine/State.lean ====
section
/-! DEFINITION. The state of spec/10_state.md as plain data: the engines, buffer memory, the host and the marks. -/

namespace Sys2Proof.Machine

/-- R28, R68: the payload variant held in F_KIND. The 2-bit value 3 is not an encoding, so the type has no fourth name. -/
inductive Kind where
  | raw
  | telemetry
  | battery
  deriving DecidableEq, Repr

/-- R110: the result codes a command completes with. Codes 7 to 15 are never produced, so they have no name. -/
inductive ResultCode where
  | ok
  | invalidArgument
  | invalidSize
  | invalidCRC
  | invalidState
  | illegalCommand
  | busError
  deriving DecidableEq, Repr

/-- R10: the state of one engine, field for field. Nothing else persists between steps (R34, R35). -/
structure Engine where
  /-- R33: the hidden command latch. -/
  cmdLatch     : Word
  /-- R16: STATUS.CODE, 4 bits. -/
  statusCode   : BitVec 4
  /-- R16: STATUS.BUSY. -/
  statusBusy   : Bool
  /-- R16: STATUS.DONE. -/
  statusDone   : Bool
  /-- R18. -/
  srcAddr      : Word
  /-- R19. -/
  srcLen       : Word
  /-- R20. -/
  dstAddr      : Word
  /-- R21. -/
  dstCap       : Word
  /-- R22. -/
  crcResult    : Half
  /-- R23. -/
  bytesWritten : Word
  /-- R24. -/
  fCategory    : Byte
  /-- R25. -/
  fFlags       : Byte
  /-- R26. -/
  fSequence    : Byte
  /-- R27. -/
  fLength      : Byte
  /-- R28. -/
  fKind        : Kind
  /-- R29. -/
  fCrc         : Half
  /-- R30: an `f32` bit pattern, like F_PITCH and F_YAW. -/
  fRoll        : Word
  fPitch       : Word
  fYaw         : Word
  /-- R31. -/
  fVoltageMv   : Half
  /-- R31. -/
  fCurrentMa   : Half
  /-- R31. -/
  fPercent     : Byte
  /-- R32: F_RAW, MAX_PAYLOAD_SIZE bytes. -/
  fRaw         : List Byte
  deriving DecidableEq, Repr

/-- R120: every register of an engine right after reset. -/
def Engine.reset (c : Config) : Engine :=
  { cmdLatch := 0#32, statusCode := 0#4, statusBusy := false, statusDone := false,
    srcAddr := 0#32, srcLen := 0#32, dstAddr := 0#32, dstCap := 0#32, crcResult := 0#16, bytesWritten := 0#32,
    fCategory := 0#8, fFlags := 0#8, fSequence := 0#8, fLength := 0#8, fKind := .raw, fCrc := 0#16,
    fRoll := 0#32, fPitch := 0#32, fYaw := 0#32, fVoltageMv := 0#16, fCurrentMa := 0#16, fPercent := 0#8,
    fRaw := List.replicate c.maxPayload.size 0#8 }

/-- R36: buffer memory, as (address, byte) cells in one canonical form (`Memory.wf`). -/
abbrev Memory := List Host.Cell

/-- What an address with no cell reads as (log entry 2): the spec gives no contents at power-up (spec/93 row 19). -/
def Memory.background : Byte := 0#8

/-- Every cell's address is above `lo`, the addresses rise strictly, and no cell holds the background byte. -/
def Memory.wfAbove : Nat → Memory → Bool
  | _, [] => true
  | lo, (a, v) :: m => decide (lo ≤ a) && decide (v ≠ Memory.background) && Memory.wfAbove (a + 1) m

/-- The canonical form of memory. -/
def Memory.wf (m : Memory) : Bool := Memory.wfAbove 0 m

/-- R115: the host's breaches of the engine's contract. -/
inductive HostFaultReason where
  /-- R48: an access not of 32 bits, at a misaligned offset, or outside the window. -/
  | badRegisterAccess
  /-- R124: any register write while BUSY = 1. -/
  | registerWriteWhileBusy
  /-- R126: a buffer access, or a command on another engine, that touches a pending command's range. -/
  | bufferAccessWhileBusy
  deriving DecidableEq, Repr

/-- What the host may do in one step (R9), and the platform's reset input (R120). A register access names its engine by
the window's base address (R118). -/
inductive HostAction where
  /-- R69: a host transaction, as its selector and data word. -/
  | transact (base : Nat) (sel : BitVec 10) (wdata : Word)
  /-- R48: any access to the register space, of `width` bits at `off`, whether or not R69 can express it. -/
  | access (base : Nat) (write : Bool) (width off : Nat) (wdata : Word)
  /-- R49: `HostMemWrite(a, v)`. -/
  | memWrite (addr : Nat) (v : Byte)
  /-- R49: `HostMemRead(a)`. -/
  | memRead (addr : Nat)
  /-- R70: `WAIT`, which reads STATUS and stays the host's next action while the BUSY bit read is 1. -/
  | wait (base : Nat)
  /-- R120: the platform's reset input of one engine. -/
  | reset (base : Nat)
  deriving DecidableEq, Repr

/-- R9, R52: whose step comes next, the host's or the `k`-th engine's. -/
inductive Turn where
  | host
  | engine (k : Nat)
  deriving DecidableEq, Repr

/-- R10's SystemState, with the parameters it is a function of and the host's side of the interface. `eng` is the engine
an instruction acts on. `others` are the platform's further engines (R118), engine `k + 1` at index `k`; a step of
engine `k` runs with engine `k` put in `eng`'s place (`State.swap`). The fields from `hostQueue` on are the model's own
(log entries 5, 6, 7 and 8): the spec gives them no register. -/
structure State where
  /-- The parameters of R1 to R6 and R50. -/
  cfg       : Config
  eng       : Engine
  others    : List Engine
  mem       : Memory
  /-- R115: the sticky mark. -/
  hostFault : Option HostFaultReason
  /-- R109: what the host still has to do, first action first. -/
  hostQueue : List HostAction
  /-- R52: the order of the steps to come, a free choice of the environment. -/
  turns     : List Turn
  /-- R103: RDATA of the host's last register read. -/
  rdata     : Word
  /-- R49: the byte the host's last buffer-memory read returned. -/
  hostByte  : Byte
  /-- R125: how many free values the run has drawn. -/
  draws     : Nat
  deriving DecidableEq, Repr

/-- The state right after reset of a platform with the parameters `c` and one engine (R120; log entries 2, 5 to 8). -/
def State.resetWith (c : Config) : State :=
  { cfg := c, eng := Engine.reset c, others := [], mem := [], hostFault := none,
    hostQueue := [], turns := [], rdata := 0#32, hostByte := 0#8, draws := 0 }

/-- The state right after reset in the reference configuration (R8, R120; log entry 1). -/
def State.reset : State := State.resetWith Config.reference

/-- Why no agent can take a step. -/
inductive Fault where
  /-- Raised by `step` in a state whose sticky mark is set: "No agent takes another step" (R115). Safe. -/
  | hostFaultRecorded (r : HostFaultReason)
  /-- Raised by `step` when no command is pending and the host's next action has no step: a buffer-memory access where
  MEM_ADMITS is false ("the host is stuck", R49), or a register access to a base address where no engine's window is
  (log entry 9). Safe. -/
  | hostStuck
  deriving DecidableEq, Repr

/-- Why the model gives no meaning. -/
inductive Refusal where
  /-- An instruction with no meaning in `exec`: no arm of `exec` answers with it. Safe. -/
  | notModelled (mnemonic : String)
  /-- Raised by `step` on a platform outside the parameters' constraints (`Config.wf`): R37 and spec/93 row 17 say that a
  model must not give such a platform any semantics. Safe. -/
  | platformOutsideContract
  deriving DecidableEq, Repr

end Sys2Proof.Machine
end

