-- ==== Sys2Proof/Machine/Operands.lean ====
section
/-! DEFINITION. Derived constants, byte-order helpers, the wire header, and the register window's offsets. -/

namespace Sys2Proof.Machine

/-! ### Derived constants (R3) -/

/-- R3: HEADER_SIZE. -/
def headerSize (c : Config) : Nat :=
  match c.hdrProfile with
  | .minimal => 3
  | .extended => 4

/-- R3: MIN_FRAME_SIZE = HEADER_SIZE + 0 + 2. -/
def minFrameSize (c : Config) : Nat := headerSize c + 0 + 2

/-- R3: OFF_CATEGORY. -/
def offCategory : Nat := 0

/-- R3: OFF_FLAGS, absent in the MINIMAL profile. -/
def offFlags (c : Config) : Option Nat :=
  match c.hdrProfile with
  | .minimal => none
  | .extended => some 1

/-- R3: OFF_SEQUENCE. -/
def offSequence (c : Config) : Nat :=
  match c.hdrProfile with
  | .minimal => 1
  | .extended => 2

/-- R3: OFF_LENGTH. -/
def offLength (c : Config) : Nat :=
  match c.hdrProfile with
  | .minimal => 2
  | .extended => 3

/-- R3: TELEMETRY_SIZE. -/
def telemetrySize : Nat := 12

/-- R3: BATTERY_SIZE. -/
def batterySize : Nat := 5

/-- R64: the wire size of a frame with `len` payload bytes, HEADER_SIZE + length + 2. -/
def frameSize (c : Config) (len : Nat) : Nat := headerSize c + len + 2

/-! ### Byte order (R44) -/

/-- R44: `le16`, the least significant byte first. -/
def le16 (b0 b1 : Byte) : Half :=
  b0.setWidth 16 ||| (b1.setWidth 16 <<< 8)

/-- R44: `le32`, the least significant byte first. -/
def le32 (b0 b1 b2 b3 : Byte) : Word :=
  b0.setWidth 32 ||| (b1.setWidth 32 <<< 8) ||| (b2.setWidth 32 <<< 16) ||| (b3.setWidth 32 <<< 24)

/-- R44: `enc16`. -/
def enc16 (v : Half) : List Byte :=
  [v.extractLsb' 0 8, v.extractLsb' 8 8]

/-- R44: `enc32`. -/
def enc32 (v : Word) : List Byte :=
  [v.extractLsb' 0 8, v.extractLsb' 8 8, v.extractLsb' 16 8, v.extractLsb' 24 8]

/-- Byte `i` of a list, 0 past its end (R32, R47: a position that does not exist reads as 0). -/
def byteAt (bs : List Byte) (i : Nat) : Byte := bs.getD i 0#8

/-- The first `n` bytes of a list, with 0 for those it does not have (R86: `(i < L) ? p[i] : 0`). -/
def padTo : Nat → List Byte → List Byte
  | 0, _ => []
  | n + 1, [] => 0#8 :: padTo n []
  | n + 1, b :: bs => b :: padTo n bs

/-- `v[0..len xs) <- xs` (R96). -/
def overlay (xs v : List Byte) : List Byte := xs ++ v.drop xs.length

/-! ### Category and kind -/

/-- R85: Classify. -/
def classify (c : Config) (cat : Byte) (len : Nat) : Kind :=
  if cat = c.catTelemetry ∧ len ≥ telemetrySize then .telemetry
  else if cat = c.catBattery ∧ len ≥ batterySize then .battery
  else .raw

/-- R68: the 2-bit encoding of the kind. -/
def Kind.bits : Kind → BitVec 2
  | .raw => 0#2
  | .telemetry => 1#2
  | .battery => 2#2

/-- R28: the kind a 2-bit value names. The value 3 names none. -/
def Kind.ofBits? (b : BitVec 2) : Option Kind :=
  if b = 0#2 then some .raw
  else if b = 1#2 then some .telemetry
  else if b = 2#2 then some .battery
  else none

/-! ### The frame a state holds (R95, R96) -/

/-- R95: the header bytes SERIALIZE writes, by R62 and R63. -/
def headerBytes (c : Config) (e : Engine) : List Byte :=
  match c.hdrProfile with
  | .minimal => [e.fCategory, e.fSequence, e.fLength]
  | .extended => [e.fCategory, e.fFlags, e.fSequence, e.fLength]

/-- R65: the Telemetry layout. -/
def telemetryBytes (e : Engine) : List Byte := enc32 e.fRoll ++ enc32 e.fPitch ++ enc32 e.fYaw

/-- R66: the Battery layout. -/
def batteryBytes (e : Engine) : List Byte := enc16 e.fVoltageMv ++ enc16 e.fCurrentMa ++ [e.fPercent]

/-- R96: the raw view of the active variant, which F_KIND selects. -/
def rawView (e : Engine) : List Byte :=
  match e.fKind with
  | .raw => e.fRaw
  | .telemetry => overlay (telemetryBytes e) e.fRaw
  | .battery => overlay (batteryBytes e) e.fRaw

/-! ### The register window (R12) -/

/-- R12: the registers of the window. -/
inductive Reg where
  | cmd | status | config | srcAddr | srcLen | dstAddr | dstCap | crcResult | bytesWritten
  | fCategory | fFlags | fSequence | fLength | fKind | fCrc | fRoll | fPitch | fYaw
  | fVoltageMv | fCurrentMa | fPercent
  /-- R32: the window word that holds F_RAW[4k] to F_RAW[4k+3]. -/
  | fRawWord (k : Nat)
  /-- R14. -/
  | reserved
  deriving DecidableEq, Repr

/-- R12: the table of offsets, less the F_RAW words and the reserved offsets. -/
def regTable : List (Nat × Reg) :=
  [(0x000, .cmd), (0x004, .status), (0x008, .config),
   (0x010, .srcAddr), (0x014, .srcLen), (0x018, .dstAddr), (0x01C, .dstCap),
   (0x020, .crcResult), (0x024, .bytesWritten)] ++
  [(0x040, .fCategory), (0x044, .fFlags), (0x048, .fSequence), (0x04C, .fLength), (0x050, .fKind), (0x054, .fCrc),
   (0x058, .fRoll), (0x05C, .fPitch), (0x060, .fYaw),
   (0x064, .fVoltageMv), (0x068, .fCurrentMa), (0x06C, .fPercent)]

/-- R12: the register at an aligned offset of the window. Every offset that is neither in the table nor in F_RAW's range
is reserved. -/
def regAt (off : Nat) : Reg :=
  if 0x100 ≤ off ∧ off ≤ 0x1FC then .fRawWord ((off - 0x100) / 4)
  else (regTable.lookup off).getD .reserved

/-- R48: the offsets the hardware admits, aligned and inside the window. -/
def offsetAdmitted (off : Nat) : Bool := decide (off % 4 = 0) && decide (off < 0x200)

end Sys2Proof.Machine
end

