-- ==== Sys2Proof/Machine/Flags.lean ====
section
/-! DEFINITION. The status word, the CONFIG word and the register reads that pack fields into a window word. -/

namespace Sys2Proof.Machine

/-- R110: the number of a result code. -/
def ResultCode.bits : ResultCode → BitVec 4
  | .ok => 0#4
  | .invalidArgument => 1#4
  | .invalidSize => 2#4
  | .invalidCRC => 3#4
  | .invalidState => 4#4
  | .illegalCommand => 5#4
  | .busError => 6#4

/-- R16: STATUS reads as `DONE << 5 | BUSY << 4 | CODE`. -/
def statusWord (e : Engine) : Word :=
  (BitVec.ofBool e.statusDone ++ BitVec.ofBool e.statusBusy ++ e.statusCode).setWidth 32

/-- R16: the BUSY bit of a status word. -/
def statusWordBusy (w : Word) : Bool := w.getLsbD 4

/-- R17: the PROFILE bit of CONFIG. -/
def profileBit (c : Config) : Bool :=
  match c.hdrProfile with
  | .minimal => false
  | .extended => true

/-- R17: CONFIG, from its highest field down: CAT_BATTERY, CAT_TELEMETRY, MAX_PAYLOAD_SIZE, HEADER_SIZE, 3 bits of 0,
PROFILE. -/
def configWord (c : Config) : Word :=
  c.catBattery ++ c.catTelemetry ++ BitVec.ofNat 8 c.maxPayload.size ++ BitVec.ofNat 4 (headerSize c)
    ++ (0#3) ++ BitVec.ofBool (profileBit c)

/-- R47: the window word `k` of F_RAW. A byte that does not exist reads as 0. -/
def rawWord (e : Engine) (k : Nat) : Word :=
  le32 (byteAt e.fRaw (4 * k)) (byteAt e.fRaw (4 * k + 1)) (byteAt e.fRaw (4 * k + 2)) (byteAt e.fRaw (4 * k + 3))

/-- R25: F_FLAGS reads as 0 in the MINIMAL profile. -/
def flagsRead (c : Config) (e : Engine) : Byte :=
  match c.hdrProfile with
  | .minimal => 0#8
  | .extended => e.fFlags

/-- R103 with BUSY = 0: what a read of each register returns. -/
def readReg (c : Config) (e : Engine) : Reg → Word
  | .cmd => 0#32
  | .status => statusWord e
  | .config => configWord c
  | .srcAddr => e.srcAddr
  | .srcLen => e.srcLen
  | .dstAddr => e.dstAddr
  | .dstCap => e.dstCap
  | .crcResult => e.crcResult.setWidth 32
  | .bytesWritten => e.bytesWritten
  | .fCategory => e.fCategory.setWidth 32
  | .fFlags => (flagsRead c e).setWidth 32
  | .fSequence => e.fSequence.setWidth 32
  | .fLength => e.fLength.setWidth 32
  | .fKind => e.fKind.bits.setWidth 32
  | .fCrc => e.fCrc.setWidth 32
  | .fRoll => e.fRoll
  | .fPitch => e.fPitch
  | .fYaw => e.fYaw
  | .fVoltageMv => e.fVoltageMv.setWidth 32
  | .fCurrentMa => e.fCurrentMa.setWidth 32
  | .fPercent => e.fPercent.setWidth 32
  | .fRawWord k => rawWord e k
  | .reserved => 0#32

/-- R103, R125: the registers whose read is defined while BUSY = 1. -/
def readableWhileBusy (off : Nat) : Bool := decide (off = 0x004) || decide (off = 0x008)

/-- R102: one byte of F_RAW, if position `i` exists. -/
def setRawByte (raw : List Byte) (i : Nat) (v : Byte) : List Byte := raw.set i v

/-- R47, R102: a host write of `v` to the window word `k` of F_RAW. A part aimed at a position that does not exist is
ignored. -/
def writeRawWord (raw : List Byte) (k : Nat) (v : Word) : List Byte :=
  let raw := setRawByte raw (4 * k) (v.extractLsb' 0 8)
  let raw := setRawByte raw (4 * k + 1) (v.extractLsb' 8 8)
  let raw := setRawByte raw (4 * k + 2) (v.extractLsb' 16 8)
  setRawByte raw (4 * k + 3) (v.extractLsb' 24 8)

/-- R28: a host write to F_KIND. A value whose bits [1:0] are 3 leaves it unchanged. -/
def writeKind (old : Kind) (v : Word) : Kind := (Kind.ofBits? (v.extractLsb' 0 2)).getD old

/-- R25: a host write to F_FLAGS is ignored in the MINIMAL profile. -/
def writeFlags (c : Config) (old : Byte) (v : Word) : Byte :=
  match c.hdrProfile with
  | .minimal => old
  | .extended => v.setWidth 8

/-- R102 with BUSY = 0, for every register but CMD: the engine after a host write of `v`. Read-only registers (R16, R17,
R22, R23) and reserved offsets (R14) ignore it. A narrow register keeps the low bits of `v` (R13). -/
def writeReg (c : Config) (e : Engine) (r : Reg) (v : Word) : Engine :=
  match r with
  | .cmd => e
  | .status => e
  | .config => e
  | .srcAddr => { e with srcAddr := v }
  | .srcLen => { e with srcLen := v }
  | .dstAddr => { e with dstAddr := v }
  | .dstCap => { e with dstCap := v }
  | .crcResult => e
  | .bytesWritten => e
  | .fCategory => { e with fCategory := v.setWidth 8 }
  | .fFlags => { e with fFlags := writeFlags c e.fFlags v }
  | .fSequence => { e with fSequence := v.setWidth 8 }
  | .fLength => { e with fLength := v.setWidth 8 }
  | .fKind => { e with fKind := writeKind e.fKind v }
  | .fCrc => { e with fCrc := v.setWidth 16 }
  | .fRoll => { e with fRoll := v }
  | .fPitch => { e with fPitch := v }
  | .fYaw => { e with fYaw := v }
  | .fVoltageMv => { e with fVoltageMv := v.setWidth 16 }
  | .fCurrentMa => { e with fCurrentMa := v.setWidth 16 }
  | .fPercent => { e with fPercent := v.setWidth 8 }
  | .fRawWord k => { e with fRaw := writeRawWord e.fRaw k v }
  | .reserved => e

end Sys2Proof.Machine
end

