-- ==== Sys2Proof/Machine/Ops.lean ====
section
/-! DEFINITION. The shared operations: buffer memory, completing a command, host faults, pending ranges, command issue,
the payload registers, and putting one of several engines in focus. -/

namespace Sys2Proof.Machine

/-! ### Buffer memory -/

/-- R6, R36, R40: the byte addresses that exist. An address of 2^32 or more does not (R39). -/
def admits (c : Config) (a : Nat) : Bool :=
  decide (a < 2 ^ 32) && c.memAdmits.any fun r => decide (r.lo ≤ a ∧ a ≤ r.hi)

/-- The addresses `a` to `a + n - 1` all exist. -/
def admitsAll (c : Config) : Nat → Nat → Bool
  | _, 0 => true
  | a, n + 1 => admits c a && admitsAll c (a + 1) n

/-- `mem[a]`. -/
def Memory.read : Memory → Nat → Byte
  | [], _ => Memory.background
  | (b, v) :: m, a => if a = b then v else Memory.read m a

/-- `mem[a] <- v`, in canonical form: a background byte has no cell. -/
def Memory.write : Memory → Nat → Byte → Memory
  | [], a, v => if v = Memory.background then [] else [(a, v)]
  | (b, w) :: m, a, v =>
    if a < b then (if v = Memory.background then (b, w) :: m else (a, v) :: (b, w) :: m)
    else if a = b then (if v = Memory.background then m else (a, v) :: m)
    else (b, w) :: Memory.write m a v

/-- R41: `MemWrite(a, n, bs)`, byte `bs[i]` to address `a + i`. -/
def Memory.writeBytes : Memory → Nat → List Byte → Memory
  | m, _, [] => m
  | m, a, b :: bs => Memory.writeBytes (m.write a b) (a + 1) bs

/-- R40: `MemRead(a, n)`, in increasing address order. `none` is the bus error of the first address that does not exist. -/
def memRead? (c : Config) (m : Memory) : Nat → Nat → Option (List Byte)
  | _, 0 => some []
  | a, n + 1 =>
    if admits c a then
      match memRead? c m (a + 1) n with
      | some bs => some (m.read a :: bs)
      | none => none
    else none

/-! ### Completing a command -/

/-- R105, R111: STATUS after a command ends with `code`. -/
def Engine.finish (e : Engine) (code : ResultCode) : Engine :=
  { e with statusCode := code.bits, statusBusy := false, statusDone := true }

/-- R111: `finish(code)` and `raise <Code>`. -/
def State.finish (s : State) (code : ResultCode) : State := { s with eng := s.eng.finish code }

/-- R111, R112: the end of a command that either raised a code, having written nothing, or made its writes and ends
with OK. -/
def State.complete (s : State) (result : Except ResultCode State) : State :=
  match result with
  | .ok t => t.finish .ok
  | .error code => s.finish code

/-! ### Host faults -/

/-- R115: `host_fault(reason)`, the sticky mark. Registers and memory are left unchanged (R48). -/
def State.recordFault (s : State) (r : HostFaultReason) : State := { s with hostFault := some r }

/-! ### Pending ranges (R123) -/

/-- A run of addresses from `lo` up to but not including `hi`. -/
structure Span where
  lo : Nat
  hi : Nat
  deriving DecidableEq, Repr

/-- R123: the `len` bytes from `base`, the end clipped to 2^32. -/
def spanOf (base len : Nat) : Span := ⟨base, min (base + len) (2 ^ 32)⟩

/-- The empty range. -/
def noSpan : Span := ⟨0, 0⟩

def Span.has (r : Span) (a : Nat) : Bool := decide (r.lo ≤ a) && decide (a < r.hi)

def Span.overlaps (r q : Span) : Bool := decide (max r.lo q.lo < min r.hi q.hi)

/-- R123: the read range of the latched command. -/
def Engine.readSpan (e : Engine) : Span :=
  match decodeCommand e.cmdLatch with
  | .ok .crc16 => spanOf e.srcAddr.toNat e.srcLen.toNat
  | .ok .parse => spanOf e.srcAddr.toNat e.srcLen.toNat
  | .ok .fill => spanOf e.srcAddr.toNat e.fLength.toNat
  | .ok .serialize => noSpan
  | .ok (.regRead _) => noSpan
  | .ok (.regWrite _ _) => noSpan
  | .error _ => noSpan

/-- R123: the write range of the latched command. -/
def Engine.writeSpan (c : Config) (e : Engine) : Span :=
  match decodeCommand e.cmdLatch with
  | .ok .crc16 => noSpan
  | .ok .parse => noSpan
  | .ok .fill => noSpan
  | .ok .serialize => spanOf e.dstAddr.toNat (frameSize c e.fLength.toNat)
  | .ok (.regRead _) => noSpan
  | .ok (.regWrite _ _) => noSpan
  | .error _ => noSpan

/-- R118, R126: the write range of one of the two commands overlaps a range of the other. -/
def rangesConflict (c : Config) (e f : Engine) : Bool :=
  (e.writeSpan c).overlaps f.readSpan || (e.writeSpan c).overlaps (f.writeSpan c) || (f.writeSpan c).overlaps e.readSpan

/-- R126: both engines have a command pending and their ranges conflict. -/
def pendingConflict (c : Config) (e f : Engine) : Bool := e.statusBusy && f.statusBusy && rangesConflict c e f

/-- R118: every engine of the platform. -/
def State.engines (s : State) : List Engine := s.eng :: s.others

/-- R126: a host write to `a` falls in a pending command's read range or write range. -/
def State.hostWriteHazard (s : State) (a : Nat) : Bool :=
  s.engines.any fun e => e.statusBusy && (e.readSpan.has a || (e.writeSpan s.cfg).has a)

/-- R126: a host read of `a` falls in a pending command's write range. -/
def State.hostReadHazard (s : State) (a : Nat) : Bool :=
  s.engines.any fun e => e.statusBusy && (e.writeSpan s.cfg).has a

/-! ### Issuing a command -/

/-- R104: the engine after a CMD write of `v`. -/
def Engine.issue (e : Engine) (v : Word) : Engine :=
  { e with cmdLatch := v, statusCode := 0#4, statusDone := false, statusBusy := true }

/-- R104: IssueCommand. R126: issuing a command whose ranges conflict with those of a command pending on another engine
is a host fault, and the command is not issued (log entry 10). -/
def State.issueCommand (s : State) (v : Word) : State :=
  if s.others.any (pendingConflict s.cfg (s.eng.issue v)) then s.recordFault .bufferAccessWhileBusy
  else { s with eng := s.eng.issue v }

/-! ### The payload registers -/

/-- R86: the payload record. -/
structure Payload where
  kind      : Kind
  roll      : Word
  pitch     : Word
  yaw       : Word
  voltageMv : Half
  currentMa : Half
  percent   : Byte
  raw       : List Byte
  deriving DecidableEq, Repr

/-- R90: WritePayload. -/
def Engine.writePayload (e : Engine) (p : Payload) : Engine :=
  { e with
    fKind := p.kind, fRoll := p.roll, fPitch := p.pitch, fYaw := p.yaw,
    fVoltageMv := p.voltageMv, fCurrentMa := p.currentMa, fPercent := p.percent, fRaw := p.raw }

/-! ### Several engines (R118) -/

/-- Exchange `eng` with engine `k`. Engine 0 is `eng` itself; an index with no engine exchanges nothing. -/
def State.swap (s : State) : Nat → State
  | 0 => s
  | k + 1 =>
    match s.others[k]? with
    | none => s
    | some e => { s with eng := e, others := s.others.set k s.eng }

/-- Run `f` with engine `k` in focus, and put it back. -/
def State.onEngine (s : State) (k : Nat) (f : State → Host.Outcome State Fault Refusal) :
    Host.Outcome State Fault Refusal :=
  match f (s.swap k) with
  | .next t => .next (t.swap k)
  | .fault r => .fault r
  | .refused r => .refused r

/-- R118: the engine whose window's base address is `base`. -/
def State.engineAt (s : State) (base : Nat) : Option Nat :=
  match s.cfg.windowBases.findIdx? (fun b => decide (b = base)) with
  | some k => if k < s.engines.length then some k else none
  | none => none

/-- R120: reset of the engine in focus. It drops a pending command, and changes neither buffer memory nor the sticky mark. -/
def State.resetEngine (s : State) : State := { s with eng := Engine.reset s.cfg }

end Sys2Proof.Machine
end

