-- ==== Sys2Proof/Machine/Crc.lean ====
section
/-! DEFINITION. The checksum function and the CRC16 command (spec/40_crc.md). -/

namespace Sys2Proof.Machine

/-- R71: one shift, with the conditional XOR of the polynomial 0x1021 by the bit shifted out. -/
def crcShift (reg : Half) : Half :=
  if reg.msb then (reg <<< 1) ^^^ 0x1021#16 else reg <<< 1

/-- `n` shifts. -/
def crcShifts : Nat → Half → Half
  | 0, reg => reg
  | n + 1, reg => crcShifts n (crcShift reg)

/-- R71: CrcStep, the byte into the high half and 8 shifts. -/
def crcStep (reg : Half) (b : Byte) : Half := crcShifts 8 (reg ^^^ (b.setWidth 16 <<< 8))

/-- R71, R72: Crc16, from the initial register 0xFFFF, with no final XOR and no reflection. -/
def crc16 (bs : List Byte) : Half := bs.foldl crcStep 0xFFFF#16

/-- R75: CRC16's pseudocode up to its `finish` or `raise`. -/
def runCrc16 (s : State) : Except ResultCode State :=
  if s.eng.srcLen = 0#32 then .ok { s with eng := { s.eng with crcResult := 0xFFFF#16 } }
  else if s.eng.srcAddr = 0#32 then .error .invalidArgument
  else
    match memRead? s.cfg s.mem s.eng.srcAddr.toNat s.eng.srcLen.toNat with
    | none => .error .busError
    | some bs => .ok { s with eng := { s.eng with crcResult := crc16 bs } }

/-- CRC16 (R75, R105). -/
def execCrc16 (s : State) : Host.Outcome State Fault Refusal := .next (s.complete (runCrc16 s))

end Sys2Proof.Machine
end

