-- ==== Sys2Proof/Machine/HostAccess.lean ====
section
/-! DEFINITION. The host's register transactions REG_READ and REG_WRITE (spec/44_host_access.md). -/

namespace Sys2Proof.Machine

/-- R103: RDATA of a read. -/
def State.returnData (s : State) (v : Word) : State := { s with rdata := v }

/-- R103, R125: a read of a register that has no defined value while BUSY = 1 returns the next free value. -/
def State.returnFree (s : State) : State := { s with rdata := Config.busyRead s.draws, draws := s.draws + 1 }

/-- R102: a write of `v` to the register `r`, with BUSY = 0. -/
def State.storeReg (s : State) (r : Reg) (v : Word) : State :=
  match r with
  | .cmd => s.issueCommand v
  | r => { s with eng := writeReg s.cfg s.eng r v }

/-- REG_READ (R103). A bad offset is a host fault; a read changes no state of the engine or of memory. -/
def execRegRead (off : Nat) (s : State) : Host.Outcome State Fault Refusal :=
  if offsetAdmitted off then
    if s.eng.statusBusy && !readableWhileBusy off then .next s.returnFree
    else .next (s.returnData (readReg s.cfg s.eng (regAt off)))
  else .next (s.recordFault .badRegisterAccess)

/-- REG_WRITE (R102). A bad offset is a host fault, and so is any write while BUSY = 1 (R124). -/
def execRegWrite (off : Nat) (wdata : Word) (s : State) : Host.Outcome State Fault Refusal :=
  if offsetAdmitted off then
    if s.eng.statusBusy then .next (s.recordFault .registerWriteWhileBusy)
    else .next (s.storeReg (regAt off) wdata)
  else .next (s.recordFault .badRegisterAccess)

end Sys2Proof.Machine
end

