-- ==== Sys2Proof/Machine/Payloads.lean ====
section
/-! DEFINITION. The payload dispatcher and the FILL command (spec/42_dispatch.md). -/

namespace Sys2Proof.Machine

/-- R86: the record before any typed decode, every typed field 0. R89: the payload bytes are kept for every kind. -/
def rawPayload (c : Config) (kind : Kind) (p : List Byte) : Payload :=
  { kind := kind, roll := 0#32, pitch := 0#32, yaw := 0#32, voltageMv := 0#16, currentMa := 0#16, percent := 0#8,
    raw := padTo c.maxPayload.size p }

/-- R65, R87: DecodeTelemetry. -/
def decodeTelemetry (p : List Byte) (r : Payload) : Payload :=
  { r with
    roll := le32 (byteAt p 0) (byteAt p 1) (byteAt p 2) (byteAt p 3)
    pitch := le32 (byteAt p 4) (byteAt p 5) (byteAt p 6) (byteAt p 7)
    yaw := le32 (byteAt p 8) (byteAt p 9) (byteAt p 10) (byteAt p 11) }

/-- R66, R88: DecodeBattery. -/
def decodeBattery (p : List Byte) (r : Payload) : Payload :=
  { r with
    voltageMv := le16 (byteAt p 0) (byteAt p 1)
    currentMa := le16 (byteAt p 2) (byteAt p 3)
    percent := byteAt p 4 }

/-- R86: Dispatch. It has no failure outcome; a short or unknown payload falls back to RAW (R91). -/
def dispatchPayload (c : Config) (cat : Byte) (p : List Byte) : Payload :=
  let kind := classify c cat p.length
  match kind with
  | .raw => rawPayload c kind p
  | .telemetry => decodeTelemetry p (rawPayload c kind p)
  | .battery => decodeBattery p (rawPayload c kind p)

/-- R92: FILL's pseudocode up to its `finish` or `raise`. -/
def runFill (s : State) : Except ResultCode State :=
  if s.eng.fLength.toNat > s.cfg.maxPayload.size then .error .invalidState
  else if s.eng.fLength.toNat > 0 ∧ s.eng.srcAddr = 0#32 then .error .invalidArgument
  else
    match memRead? s.cfg s.mem s.eng.srcAddr.toNat s.eng.fLength.toNat with
    | none => .error .busError
    | some p => .ok { s with eng := s.eng.writePayload (dispatchPayload s.cfg s.eng.fCategory p) }

/-- FILL (R92, R105). -/
def execFill (s : State) : Host.Outcome State Fault Refusal := .next (s.complete (runFill s))

end Sys2Proof.Machine
end

