-- ==== Sys2Proof/Machine/Parse.lean ====
section
/-! DEFINITION. The PARSE command (spec/41_parse.md). -/

namespace Sys2Proof.Machine

/-- R82, R25: the flags byte of a frame, 0 in the MINIMAL profile. -/
def frameFlags (c : Config) (fr : List Byte) : Byte :=
  match offFlags c with
  | none => 0#8
  | some off => byteAt fr off

/-- R81: the checksum on the wire, the two bytes right after the payload. -/
def frameReceivedCrc (c : Config) (fr : List Byte) (len : Nat) : Half :=
  le16 (byteAt fr (headerSize c + len)) (byteAt fr (headerSize c + len + 1))

/-- R81: the checksum computed over header and payload. -/
def frameComputedCrc (c : Config) (fr : List Byte) (len : Nat) : Half := crc16 (fr.take (headerSize c + len))

/-- R82: the payload bytes of a frame. -/
def framePayload (c : Config) (fr : List Byte) (len : Nat) : List Byte := (fr.drop (headerSize c)).take len

/-- R76 step 5, R83: the engine after a frame with a matching checksum. -/
def Engine.writeFrame (c : Config) (e : Engine) (fr : List Byte) (len : Byte) : Engine :=
  Engine.writePayload
    { e with
      fCategory := byteAt fr offCategory
      fFlags := frameFlags c fr
      fSequence := byteAt fr (offSequence c)
      fLength := len
      fCrc := frameReceivedCrc c fr len.toNat }
    (dispatchPayload c (byteAt fr offCategory) (framePayload c fr len.toNat))

/-- R80, R81, R82: PARSE's steps 3 to 5, once the length byte `len` is known to be at most MAX_PAYLOAD_SIZE. -/
def parseBody (s : State) (len : Byte) : Except ResultCode State :=
  if s.eng.srcLen.toNat < frameSize s.cfg len.toNat then .error .invalidSize
  else
    match memRead? s.cfg s.mem s.eng.srcAddr.toNat (frameSize s.cfg len.toNat) with
    | none => .error .busError
    | some fr =>
      if frameComputedCrc s.cfg fr len.toNat ≠ frameReceivedCrc s.cfg fr len.toNat then .error .invalidCRC
      else .ok { s with eng := s.eng.writeFrame s.cfg fr len }

/-- R76: PARSE's pseudocode up to its `finish` or `raise`, the checks strictly in its order. -/
def runParse (s : State) : Except ResultCode State :=
  if s.eng.srcAddr = 0#32 then .error .invalidArgument
  else if s.eng.srcLen.toNat < minFrameSize s.cfg then .error .invalidSize
  else
    let lengthAddr := s.eng.srcAddr.toNat + offLength s.cfg
    if admits s.cfg lengthAddr then
      let len := s.mem.read lengthAddr
      if len.toNat > s.cfg.maxPayload.size then .error .invalidSize else parseBody s len
    else .error .busError

/-- PARSE (R76, R105). -/
def execParse (s : State) : Host.Outcome State Fault Refusal := .next (s.complete (runParse s))

end Sys2Proof.Machine
end

