-- ==== Sys2Proof/Machine/Serialize.lean ====
section
/-! DEFINITION. The SERIALIZE command (spec/43_serialize.md). -/

namespace Sys2Proof.Machine

/-- R93: header and payload, the bytes the checksum covers (R64). -/
def frameBody (c : Config) (e : Engine) : List Byte := headerBytes c e ++ (rawView e).take e.fLength.toNat

/-- R93, R97: the whole frame, the checksum low byte first (R45). -/
def frameBytes (c : Config) (e : Engine) : List Byte := frameBody c e ++ enc16 (crc16 (frameBody c e))

/-- R93, R94: SERIALIZE's pseudocode up to its `finish` or `raise`, every check before the first write. -/
def runSerialize (s : State) : Except ResultCode State :=
  if s.eng.dstAddr = 0#32 then .error .invalidArgument
  else if s.eng.fLength.toNat > s.cfg.maxPayload.size then .error .invalidState
  else
    let total := frameSize s.cfg s.eng.fLength.toNat
    if s.eng.dstCap.toNat < total then .error .invalidSize
    else if admitsAll s.cfg s.eng.dstAddr.toNat total then
      .ok { s with
        mem := s.mem.writeBytes s.eng.dstAddr.toNat (frameBytes s.cfg s.eng)
        eng := { s.eng with bytesWritten := BitVec.ofNat 32 total } }
    else .error .busError

/-- SERIALIZE (R93, R105). -/
def execSerialize (s : State) : Host.Outcome State Fault Refusal := .next (s.complete (runSerialize s))

end Sys2Proof.Machine
end

