-- ==== Sys2Proof/Machine/Dispatch.lean ====
section
/-! DEFINITION. One arm per instruction: the whole of an instruction's meaning is the definition its arm calls. -/

namespace Sys2Proof.Machine

def exec (i : Instr) (s : State) : Host.Outcome State Fault Refusal :=
  match i with
  | .crc16 => Sys2Proof.Machine.execCrc16 s
  | .parse => Sys2Proof.Machine.execParse s
  | .fill => Sys2Proof.Machine.execFill s
  | .serialize => Sys2Proof.Machine.execSerialize s
  | .regRead off => Sys2Proof.Machine.execRegRead off s
  | .regWrite off wdata => Sys2Proof.Machine.execRegWrite off wdata s

end Sys2Proof.Machine
end

