-- ==== Sys2Proof/Machine/Agents.lean ====
section
/-! DEFINITION. What each agent's step does (R9): the engine step, the host step, and whose step comes next. -/

namespace Sys2Proof.Machine

/-! ### The engine step -/

/-- R105: the engine step of the engine in focus. R106: an illegal word completes with IllegalCommand. -/
def engineStep (s : State) : Host.Outcome State Fault Refusal :=
  match decodeCommand s.eng.cmdLatch with
  | .ok i => exec i s
  | .error _ => .next (s.finish .illegalCommand)

/-! ### The host step -/

/-- R69: the transaction a selector and data word describe. A selector whose OFFSET is misaligned is a host fault (R48). -/
def hostTransaction (sel : BitVec 10) (wdata : Word) (s : State) : Host.Outcome State Fault Refusal :=
  match decodeTransaction sel wdata with
  | .ok i => exec i s
  | .error _ => .next (s.recordFault .badRegisterAccess)

/-- R48: an access to the register space of any width, at any offset. DESIGN CHOICE (log entry 19): a write not of 32 bits
while BUSY = 1 breaks R48 and R124 both, and the reason recorded is BadRegisterAccess. -/
def hostAccess (write : Bool) (width off : Nat) (wdata : Word) (s : State) : Host.Outcome State Fault Refusal :=
  if width = 32 then
    (if write then exec (.regWrite off wdata) s else exec (.regRead off) s)
  else .next (s.recordFault .badRegisterAccess)

/-- R49, R126: HostMemWrite. -/
def hostMemWrite (a : Nat) (v : Byte) (s : State) : State :=
  if s.hostWriteHazard a then s.recordFault .bufferAccessWhileBusy
  else { s with mem := s.mem.write a v }

/-- R49, R126: HostMemRead. -/
def hostMemRead (a : Nat) (s : State) : State :=
  if s.hostReadHazard a then s.recordFault .bufferAccessWhileBusy
  else { s with hostByte := s.mem.read a }

/-- R70: one read of a `WAIT` loop, on the engine in focus. The loop goes on while the BUSY bit read is 1. -/
def hostWait (base : Nat) (s : State) : Host.Outcome State Fault Refusal :=
  match exec (.regRead 0x004) s with
  | .next t => .next (if statusWordBusy t.rdata then { t with hostQueue := .wait base :: t.hostQueue } else t)
  | .fault r => .fault r
  | .refused r => .refused r

/-- R9: the host action `a`, already taken off the queue. A register access goes to the engine whose window is at its
base; where there is none the action is not enabled (`hostEnabled`), and nothing happens here. -/
def hostStep (a : HostAction) (s : State) : Host.Outcome State Fault Refusal :=
  match a with
  | .transact base sel wdata => s.onEngine ((s.engineAt base).getD 0) (hostTransaction sel wdata)
  | .access base write width off wdata => s.onEngine ((s.engineAt base).getD 0) (hostAccess write width off wdata)
  | .memWrite addr v => .next (hostMemWrite addr v s)
  | .memRead addr => .next (hostMemRead addr s)
  | .wait base => s.onEngine ((s.engineAt base).getD 0) (hostWait base)
  | .reset base => s.onEngine ((s.engineAt base).getD 0) fun t => .next t.resetEngine

/-! ### Whose step comes next (R52, R107) -/

/-- R49: a buffer-memory access needs MEM_ADMITS. A register access, a wait and a reset need an engine at their base.
DESIGN CHOICE (log entry 20): at an address that does not exist but lies in a pending command's range, where R126 gives a
host fault and R49 no step, the access has no step. -/
def actionEnabled (s : State) : HostAction → Bool
  | .transact base _ _ => (s.engineAt base).isSome
  | .access base _ _ _ _ => (s.engineAt base).isSome
  | .memWrite addr _ => admits s.cfg addr
  | .memRead addr => admits s.cfg addr
  | .wait base => (s.engineAt base).isSome
  | .reset base => (s.engineAt base).isSome

/-- The host has an action left, and that action has a step. -/
def hostEnabled (s : State) : Bool :=
  match s.hostQueue with
  | [] => false
  | a :: _ => actionEnabled s a

/-- R105: engine `k` exists and has a command pending. -/
def engineEnabled (s : State) (k : Nat) : Bool :=
  match s.engines[k]? with
  | none => false
  | some e => e.statusBusy

def turnEnabled (s : State) : Turn → Bool
  | .host => hostEnabled s
  | .engine k => engineEnabled s k

/-- R107: with no choice left in `turns`, a pending engine steps first, so that no engine step stays enabled for ever
(log entry 6). -/
def defaultTurn (s : State) : Option Turn :=
  match s.engines.findIdx? (fun e => e.statusBusy) with
  | some k => some (.engine k)
  | none => if hostEnabled s then some .host else none

/-- R52: the first choice in the list that is enabled, with the choices after it. -/
def pickTurn (s : State) : List Turn → Option (Turn × List Turn)
  | [] => (defaultTurn s).map fun t => (t, [])
  | t :: ts => if turnEnabled s t then some (t, ts) else pickTurn s ts

/-- The step of the agent `t`, with the choices `ts` left. -/
def takeTurn (t : Turn) (ts : List Turn) (s : State) : Host.Outcome State Fault Refusal :=
  match t with
  | .engine k => State.onEngine { s with turns := ts } k engineStep
  | .host =>
    match s.hostQueue with
    | [] => .next { s with turns := ts }
    | a :: rest => hostStep a { s with turns := ts, hostQueue := rest }

/-- R109: no agent has a step. With no host action left the run has ended and the engine stays idle; with one left, the
host is stuck (R49). -/
def noTurn (s : State) : Host.Outcome State Fault Refusal :=
  match s.hostQueue with
  | [] => .next s
  | _ :: _ => .fault .hostStuck

/-- One step of a state with no host fault recorded, on a platform within the contract. -/
def systemStep (s : State) : Host.Outcome State Fault Refusal :=
  match pickTurn s s.turns with
  | some (t, ts) => takeTurn t ts s
  | none => noTurn s

/-! ### Placing one instruction -/

/-- A host transaction placed as the host's next action, on engine 0, with the next turn the host's. -/
def State.placeTransaction (s : State) (sel : BitVec 10) : State :=
  { s with
    hostFault := none
    hostQueue := .transact (s.cfg.windowBases.headD 0) sel 0#32 :: s.hostQueue
    turns := .host :: s.turns }

/-- A command word issued on engine 0 (R104), with the next turn that engine's. -/
def State.placeCommand (s : State) (w : Word) : State :=
  { s with hostFault := none, eng := s.eng.issue w, turns := .engine 0 :: s.turns }

end Sys2Proof.Machine
end

