-- ==== Sys2Proof/Machine/Step.lean ====
section
/-! DEFINITION. One step of the whole system: the host or one engine acts (R9, R52). -/

namespace Sys2Proof.Machine

/-- R115: after a host fault no agent takes another step. R37: a platform outside the contract has no semantics. -/
def step (s : State) : Host.Outcome State Fault Refusal :=
  if s.cfg.wf then
    match s.hostFault with
    | some r => .fault (.hostFaultRecorded r)
    | none => systemStep s
  else .refused .platformOutsideContract

/-- `s` with the instruction of these bits placed where the next step takes it from (log entry 5): a host transaction as
the host's next action, a command word in the command latch of engine 0 with BUSY = 1, as its CMD write leaves it. -/
def State.withFetchWord (s : State) (nbits w : Nat) : State :=
  match tableEncoded nbits w with
  | some (.transaction sel _) => s.placeTransaction sel
  | some (.command word) => s.placeCommand word
  | none => s

end Sys2Proof.Machine
end

