-- ==== Sys2Proof/Machine/HostProgram.lean ====
section
/-! DEFINITION. The notation of host programs and its expansion into host actions (R70). -/

namespace Sys2Proof.Machine

/-- R70: one line of a host program. A register is given by its offset (`Reg.offset?` gives a named register's), of any
size: R70 sets no bound, and R102 and R103 say what an offset outside the window does. -/
inductive HostLine where
  /-- `WR <reg>, <imm32>`. -/
  | wr (off : Nat) (imm : Word)
  /-- `RD <reg>`. -/
  | rd (off : Nat)
  /-- `RD <reg> == v`: the read, which also states the value the rules give (`HostLine.holds`). -/
  | rdEq (off : Nat) (v : Word)
  /-- `CMD <mnemonic>`. -/
  | cmd (i : Instr)
  /-- `WAIT`. -/
  | wait
  /-- `MEMW <addr>: <b0> <b1> ...`. -/
  | memw (addr : Nat) (bytes : List Byte)
  /-- `MEMR <addr>, <n>`. -/
  | memr (addr n : Nat)
  /-- `WRRAW <i>: <b0> <b1> ...`, `i` a multiple of 4. -/
  | wrraw (i : Nat) (bytes : List Byte)
  deriving DecidableEq, Repr

/-- R70, R58: the lines the notation has. `CMD` names one of the four commands, and `WRRAW`'s position is a multiple of 4.
The notation gives no other line a meaning; what `expand` makes of one is the model's choice (log entry 18). -/
def HostLine.wellFormed : HostLine → Bool
  | .wr _ _ => true
  | .rd _ => true
  | .rdEq _ _ => true
  | .cmd i =>
    match encode i with
    | .command _ => true
    | .transaction _ _ => false
  | .wait => true
  | .memw _ _ => true
  | .memr _ _ => true
  | .wrraw i _ => decide (i % 4 = 0)

/-- R70: what a line states of the state its read leaves. Only `RD <reg> == v` states anything. -/
def HostLine.holds (line : HostLine) (t : State) : Bool :=
  match line with
  | .rdEq _ v => decide (t.rdata = v)
  | .wr _ _ => true
  | .rd _ => true
  | .cmd _ => true
  | .wait => true
  | .memw _ _ => true
  | .memr _ _ => true
  | .wrraw _ _ => true

/-- R12: the offset of a register the table names. -/
def Reg.offset? : Reg → Option Nat
  | .fRawWord k => some (0x100 + 4 * k)
  | r => (regTable.find? fun p => decide (p.2 = r)).map Prod.fst

/-- R69, R70: `WR` is REG_WRITE at that offset. The selector's OFFSET has 9 bits, so an offset of 0x200 or more has no
selector: the host's access is then the 32-bit access of R48 (log entry 18), which R102 makes a host fault. -/
def asmWrite (base off : Nat) (imm : Word) : HostAction :=
  if off < 0x200 then .transact base (selectorOf true off) imm else .access base true 32 off imm

/-- R69, R70: `RD` is REG_READ at that offset, outside the window as for `WR`. -/
def asmRead (base off : Nat) : HostAction :=
  if off < 0x200 then .transact base (selectorOf false off) 0#32 else .access base false 32 off 0#32

/-- R70: one byte write for each address, in order. -/
def asmMemWrites : Nat → List Byte → List HostAction
  | _, [] => []
  | a, b :: bs => .memWrite a b :: asmMemWrites (a + 1) bs

/-- R70: one byte read for each address, from `a` upward. -/
def asmMemReads : Nat → Nat → List HostAction
  | _, 0 => []
  | a, n + 1 => .memRead a :: asmMemReads (a + 1) n

/-- R47, R70: the writes of the window words a byte list touches, from the word at `off`. A byte past the list's end in a
touched word is written 0. -/
def asmRawWrites (base : Nat) : Nat → List Byte → List HostAction
  | _, [] => []
  | off, [b0] => [asmWrite base off (le32 b0 0#8 0#8 0#8)]
  | off, [b0, b1] => [asmWrite base off (le32 b0 b1 0#8 0#8)]
  | off, [b0, b1, b2] => [asmWrite base off (le32 b0 b1 b2 0#8)]
  | off, b0 :: b1 :: b2 :: b3 :: bs => asmWrite base off (le32 b0 b1 b2 b3) :: asmRawWrites base (off + 4) bs

/-- R58, R70: `CMD` writes the mnemonic's command word to CMD. A host transaction has no command word. -/
def asmCommand (base : Nat) (i : Instr) : List HostAction :=
  match encode i with
  | .command w => [asmWrite base 0x000 w]
  | .transaction _ _ => []

/-- R70: the expansion of one line, for the engine whose window is at `base`. -/
def HostLine.expand (base : Nat) : HostLine → List HostAction
  | .wr off imm => [asmWrite base off imm]
  | .rd off => [asmRead base off]
  | .rdEq off _ => [asmRead base off]
  | .cmd i => asmCommand base i
  | .wait => [.wait base]
  | .memw addr bytes => asmMemWrites addr bytes
  | .memr addr n => asmMemReads addr n
  | .wrraw i bytes => asmRawWrites base (0x100 + i) bytes

/-- R70: a host program, its lines expanded in order. -/
def assemble (base : Nat) (lines : List HostLine) : List HostAction := lines.flatMap (HostLine.expand base)

/-- R109: `s` with a host program as what the host still has to do, its lines addressing the engine whose window is at
`base`. DESIGN CHOICE (log entry 18): the notation names no instance, and what the host had left to do before is replaced.
A program that uses several engines is the concatenation of what `assemble` gives at each base. -/
def State.withProgramAt (s : State) (base : Nat) (lines : List HostLine) : State :=
  { s with hostQueue := assemble base lines }

/-- R109: `s` with a host program for its first engine. DESIGN CHOICE (log entry 18): with several engines on the platform
the lines address the first window base, and base 0 on a platform with no window, where they have no step. -/
def State.withProgram (s : State) (lines : List HostLine) : State :=
  s.withProgramAt (s.cfg.windowBases.headD 0) lines

end Sys2Proof.Machine
end

