-- ==== Sys2Proof/Safety.lean ====
section
/-! DEFINITION. The terms claims are stated in: the invariant, which bytes a pending command reads and writes, a run,
a final state, a consistent frame, and the bytes of the source and destination buffers. -/

namespace Sys2Proof.Machine

/-- What every engine of a run satisfies. -/
structure Engine.Inv (c : Config) (e : Engine) : Prop where
  /-- R32: F_RAW has MAX_PAYLOAD_SIZE bytes. -/
  rawLength : e.fRaw.length = c.maxPayload.size
  /-- R110: codes 7 to 15 are never produced. -/
  codeLegal : e.statusCode.toNat ≤ 6
  /-- R16: BUSY = 1 and DONE = 1 never hold together. -/
  busyNotDone : ¬ (e.statusBusy = true ∧ e.statusDone = true)
  /-- R16: CODE is 0 while a command is pending, and before any command has completed. -/
  codeWithoutDone : e.statusDone = false → e.statusCode = 0#4
  /-- R10, R25: F_FLAGS is always 0 in the MINIMAL profile. -/
  flagsMinimal : c.hdrProfile = .minimal → e.fFlags = 0#8

/-- What every state of a run satisfies. -/
structure State.Inv (s : State) : Prop where
  /-- R5, R37: the parameters are ones the spec admits. -/
  parameters : s.cfg.wf = true
  /-- R118: one window for each engine. -/
  windows : s.cfg.windowBases.length = s.engines.length
  /-- Memory is in its canonical form. -/
  memCanonical : s.mem.wf = true
  /-- R36: only addresses that exist hold a byte. -/
  memExists : ∀ p ∈ s.mem, admits s.cfg p.1 = true
  /-- R10: every engine keeps its own invariant. -/
  enginesInv : ∀ e ∈ s.engines, e.Inv s.cfg
  /-- R118: no two pending commands have conflicting ranges. -/
  rangesApart : s.engines.Pairwise fun e f => pendingConflict s.cfg e f = false

/-- R123: the command latched in `e` reads the buffer byte at `a`. -/
def Engine.ReadsAt (e : Engine) (a : Nat) : Prop :=
  a < 2 ^ 32 ∧ e.srcAddr.toNat ≤ a ∧
    ((e.cmdLatch = 0x00000001#32 ∨ e.cmdLatch = 0x00000002#32) ∧ a < e.srcAddr.toNat + e.srcLen.toNat ∨
      e.cmdLatch = 0x00000003#32 ∧ a < e.srcAddr.toNat + e.fLength.toNat)

/-- R123: the command latched in `e` writes the buffer byte at `a`. -/
def Engine.WritesAt (c : Config) (e : Engine) (a : Nat) : Prop :=
  a < 2 ^ 32 ∧ e.dstAddr.toNat ≤ a ∧ e.cmdLatch = 0x00000004#32 ∧
    a < e.dstAddr.toNat + (headerSize c + e.fLength.toNat + 2)

/-- R118: while two engines both have a command pending, neither writes a byte that the other reads or writes. -/
def State.BuffersApart (s : State) : Prop :=
  ∀ (j k : Nat) (e f : Engine) (a : Nat), j ≠ k → s.engines[j]? = some e → s.engines[k]? = some f →
    e.statusBusy = true → f.statusBusy = true → e.WritesAt s.cfg a → ¬ f.ReadsAt a ∧ ¬ f.WritesAt s.cfg a

/-- `k` steps from `s`. -/
def State.run (s : State) (k : Nat) : Host.Outcome State Fault Refusal := Sys2Proof.core.run k s

/-- R109: the state a run of a host program ends in. -/
structure State.Final (s : State) : Prop where
  noTransaction : s.hostQueue = []
  notBusy : ∀ e ∈ s.engines, e.statusBusy = false
  noHostFault : s.hostFault = none

/-- R99: a consistent frame register state. -/
structure Engine.Consistent (c : Config) (e : Engine) : Prop where
  lengthFits : e.fLength.toNat ≤ c.maxPayload.size
  kindFits : e.fKind = classify c e.fCategory e.fLength.toNat

/-- `s` with nothing changed but the STATUS of the engine in focus: a completed command with the code `code` (R105). -/
def State.onlyStatus (s : State) (code : BitVec 4) : State :=
  { s with eng := { s.eng with statusCode := code, statusBusy := false, statusDone := true } }

/-- Byte `i` of the buffer at SRC_ADDR. -/
def State.srcByte (s : State) (i : Nat) : Byte := s.mem.read (s.eng.srcAddr.toNat + i)

/-- R39, R40: byte `i` of the buffer at SRC_ADDR is reachable. -/
def State.srcReachable (s : State) (i : Nat) : Prop := admits s.cfg (s.eng.srcAddr.toNat + i) = true

/-- R39, R94: byte `i` of the buffer at DST_ADDR is reachable. -/
def State.dstReachable (s : State) (i : Nat) : Prop := admits s.cfg (s.eng.dstAddr.toNat + i) = true

/-- R64: what the two checksum bytes of a frame of `len` payload bytes at SRC_ADDR hold. -/
def State.srcReceivedCrc (s : State) (len : Nat) : Half :=
  le16 (s.srcByte (headerSize s.cfg + len)) (s.srcByte (headerSize s.cfg + len + 1))

/-- R64: the checksum over header and payload of a frame of `len` payload bytes at SRC_ADDR. -/
def State.srcComputedCrc (s : State) (len : Nat) : Half :=
  crc16 ((List.range (headerSize s.cfg + len)).map s.srcByte)

/-- R79: the length byte of the frame at SRC_ADDR. -/
def State.srcLength (s : State) : Byte := s.srcByte (offLength s.cfg)

/-- R77 to R80: the frame at SRC_ADDR passes PARSE's steps 1 to 3. -/
structure State.SourceFits (s : State) : Prop where
  notNull : s.eng.srcAddr ≠ 0#32
  notShort : minFrameSize s.cfg ≤ s.eng.srcLen.toNat
  lengthReachable : s.srcReachable (offLength s.cfg)
  lengthFits : s.srcLength.toNat ≤ s.cfg.maxPayload.size
  frameFits : frameSize s.cfg s.srcLength.toNat ≤ s.eng.srcLen.toNat

/-- R81: the frame at SRC_ADDR passes PARSE's steps 1 to 4. -/
structure State.SourceValid (s : State) : Prop extends s.SourceFits where
  frameReachable : ∀ i < frameSize s.cfg s.srcLength.toNat, s.srcReachable i
  checksumMatches : s.srcComputedCrc s.srcLength.toNat = s.srcReceivedCrc s.srcLength.toNat

/-- R94: SERIALIZE passes all its checks. -/
structure State.DestinationFits (s : State) : Prop where
  notNull : s.eng.dstAddr ≠ 0#32
  lengthFits : s.eng.fLength.toNat ≤ s.cfg.maxPayload.size
  frameFits : frameSize s.cfg s.eng.fLength.toNat ≤ s.eng.dstCap.toNat
  reachable : ∀ i < frameSize s.cfg s.eng.fLength.toNat, s.dstReachable i

/-- R86 to R90: the engine `e` with the payload registers that Dispatch gives for the category `cat` and the `len`
payload bytes `p 0 .. p (len - 1)`. Every payload register is written. -/
def Engine.withPayload (c : Config) (e : Engine) (cat : Byte) (len : Nat) (p : Nat → Byte) : Engine :=
  let kind := classify c cat len
  { e with
    fKind := kind
    fRoll := if kind = .telemetry then le32 (p 0) (p 1) (p 2) (p 3) else 0#32
    fPitch := if kind = .telemetry then le32 (p 4) (p 5) (p 6) (p 7) else 0#32
    fYaw := if kind = .telemetry then le32 (p 8) (p 9) (p 10) (p 11) else 0#32
    fVoltageMv := if kind = .battery then le16 (p 0) (p 1) else 0#16
    fCurrentMa := if kind = .battery then le16 (p 2) (p 3) else 0#16
    fPercent := if kind = .battery then p 4 else 0#8
    fRaw := (List.range c.maxPayload.size).map fun i => if i < len then p i else 0#8 }

/-- R83: the engine after a valid frame, from the bytes of the buffer at SRC_ADDR. -/
def State.parsedEngine (s : State) : Engine :=
  Engine.withPayload s.cfg
    { s.eng with
      fCategory := s.srcByte 0
      fFlags := match s.cfg.hdrProfile with
        | .minimal => 0#8
        | .extended => s.srcByte 1
      fSequence := s.srcByte (offSequence s.cfg)
      fLength := s.srcLength
      fCrc := s.srcReceivedCrc s.srcLength.toNat }
    (s.srcByte 0) s.srcLength.toNat (fun i => s.srcByte (headerSize s.cfg + i))

/-- R96: payload byte `i` of the raw view. -/
def Engine.viewByte (e : Engine) (i : Nat) : Byte :=
  match e.fKind with
  | .raw => byteAt e.fRaw i
  | .telemetry => if i < 12 then byteAt (enc32 e.fRoll ++ enc32 e.fPitch ++ enc32 e.fYaw) i else byteAt e.fRaw i
  | .battery => if i < 5 then byteAt (enc16 e.fVoltageMv ++ enc16 e.fCurrentMa ++ [e.fPercent]) i else byteAt e.fRaw i

end Sys2Proof.Machine
end

