-- ==== Sys2Proof/Certificates/Slice0/Obligations.lean ====
section
/-! DEFINITION. The statements about the machine. Each docstring names the rules of spec/ its statement formalises. -/

open Sys2Proof Sys2Proof.Machine

/-! ### Encodings -/

/-- R58, R69: no bit of an encoding is dropped: decoding an encoded well-formed instruction gives it back. -/
def Obligations.DecodeOfEncode : Prop :=
  ∀ i : Instr, i.wellFormed = true → decode (encode i) = .ok i

/-- R58, R69: whatever decodes is well formed, and each encoding stands for one instruction. A read's data word is the one
part the encoder sets to 0 (log entry 11). -/
def Obligations.EncodeOfDecode : Prop :=
  ∀ (x : Encoded) (i : Instr), decode x = .ok i →
    i.wellFormed = true ∧
    (encode i = x ∨
      ∃ sel wdata, x = .transaction sel wdata ∧ selectorWrites sel = false ∧ encode i = .transaction sel 0#32)

/-- R58, R69: words written out from the encodings of spec/30 decode to the instructions they stand for. -/
def Obligations.WrittenOutWordsDecode : Prop :=
  decode (.command 0x00000001#32) = .ok .crc16 ∧
  decode (.command 0x00000002#32) = .ok .parse ∧
  decode (.command 0x00000003#32) = .ok .fill ∧
  decode (.command 0x00000004#32) = .ok .serialize ∧
  decode (.transaction 0b0000100000#10 0#32) = .ok (.regRead 0x020) ∧
  decode (.transaction 0b1000010100#10 9#32) = .ok (.regWrite 0x014 9#32) ∧
  decode (.command 0x00000101#32) = .error (.illegalCommand 0x00000101#32) ∧
  decode (.transaction 0b0000000010#10 0#32) = .error (.misalignedOffset 2)

/-- R59: every word other than the four of R58 is illegal. It is still latched by a CMD write, and the engine step
completes it with IllegalCommand, changing STATUS only. -/
def Obligations.IllegalWordsAreLatchedAndRefused : Prop :=
  ∀ w : Word, w ≠ 0x00000001#32 → w ≠ 0x00000002#32 → w ≠ 0x00000003#32 → w ≠ 0x00000004#32 →
    decodeCommand w = .error (.illegalCommand w) ∧
    (∀ s : State, s.eng.statusBusy = false →
      exec (.regWrite 0x000 w) s = .next { s with eng :=
        { s.eng with cmdLatch := w, statusCode := 0#4, statusBusy := true, statusDone := false } }) ∧
    (∀ s : State, s.eng.cmdLatch = w → engineStep s = .next (s.onlyStatus 5#4))

/-! ### The checksum -/

/-- R71, R72: the values of `Crc16` in V8 of spec/95, among them the one of the empty list. -/
def Obligations.CrcValues : Prop :=
  crc16 [] = 0xFFFF#16 ∧ crc16 [0x41#8] = 0xB915#16 ∧
  crc16 [0x31#8, 0x32#8, 0x33#8, 0x34#8, 0x35#8, 0x36#8, 0x37#8, 0x38#8, 0x39#8] = 0x29B1#16

/-- R73: a table-driven datapath, one 256-entry lookup for each byte in place of 8 shifts, gives the same value for every
byte list. -/
def Obligations.TableDrivenCrcAgrees : Prop :=
  ∀ bs : List Byte,
    bs.foldl (fun (reg : Half) (b : Byte) => (reg <<< 8) ^^^ crcStep 0#16 (reg.extractLsb' 8 8 ^^^ b)) 0xFFFF#16 = crc16 bs

/-- R74, law 3: two byte lists of equal length that differ in exactly one bit have different checksums. -/
def Obligations.CrcDetectsSingleBitChange : Prop :=
  ∀ (xs ys : List Byte) (b : Byte) (j : Nat), j < 8 →
    crc16 (xs ++ (b ^^^ (1#8 <<< j)) :: ys) ≠ crc16 (xs ++ b :: ys)

/-- R74, law 3 and more: a change of one whole byte, whatever the bits, is detected. -/
def Obligations.CrcDetectsSingleByteChange : Prop :=
  ∀ (xs ys : List Byte) (b d : Byte), b ≠ d → crc16 (xs ++ b :: ys) ≠ crc16 (xs ++ d :: ys)

/-! ### CRC16 -/

/-- R75: CRC16 in its four cases. Whatever the case, only CRC_RESULT (with OK) and STATUS change. -/
def Obligations.Crc16Result : Prop :=
  encode .crc16 = .command 0x00000001#32 ∧
  ∀ s : State,
    (s.eng.srcLen = 0#32 →
      exec .crc16 s = .next (State.onlyStatus { s with eng := { s.eng with crcResult := 0xFFFF#16 } } 0#4)) ∧
    (s.eng.srcLen ≠ 0#32 → s.eng.srcAddr = 0#32 → exec .crc16 s = .next (s.onlyStatus 1#4)) ∧
    (s.eng.srcLen ≠ 0#32 → s.eng.srcAddr ≠ 0#32 → (∃ i < s.eng.srcLen.toNat, ¬ s.srcReachable i) →
      exec .crc16 s = .next (s.onlyStatus 6#4)) ∧
    (s.eng.srcLen ≠ 0#32 → s.eng.srcAddr ≠ 0#32 → (∀ i < s.eng.srcLen.toNat, s.srcReachable i) →
      exec .crc16 s = .next (State.onlyStatus { s with eng :=
        { s.eng with crcResult := crc16 ((List.range s.eng.srcLen.toNat).map s.srcByte) } } 0#4))

/-! ### PARSE -/

/-- R77: a null pointer gives InvalidArgument whatever SRC_LEN is, and nothing but STATUS is written. -/
def Obligations.ParseNullPointer : Prop :=
  ∀ s : State, s.eng.srcAddr = 0#32 → exec .parse s = .next (s.onlyStatus 1#4)

/-- R78: a buffer below MIN_FRAME_SIZE (5 for MINIMAL, 6 for EXTENDED) gives InvalidSize. -/
def Obligations.ParseShortBuffer : Prop :=
  ∀ s : State, s.eng.srcAddr ≠ 0#32 →
    (s.cfg.hdrProfile = .minimal → s.eng.srcLen.toNat < 5 → exec .parse s = .next (s.onlyStatus 2#4)) ∧
    (s.cfg.hdrProfile = .extended → s.eng.srcLen.toNat < 6 → exec .parse s = .next (s.onlyStatus 2#4))

/-- R79: the length byte unreachable gives BusError, and a length above MAX_PAYLOAD_SIZE gives InvalidSize, whatever the
rest of the buffer holds. -/
def Obligations.ParseDeclaredLength : Prop :=
  (∀ c : Config, offLength c < minFrameSize c) ∧
  ∀ s : State, s.eng.srcAddr ≠ 0#32 → minFrameSize s.cfg ≤ s.eng.srcLen.toNat →
    (¬ s.srcReachable (offLength s.cfg) → exec .parse s = .next (s.onlyStatus 6#4)) ∧
    (s.srcReachable (offLength s.cfg) → s.cfg.maxPayload.size < s.srcLength.toNat →
      exec .parse s = .next (s.onlyStatus 2#4))

/-- R80: a buffer that holds the header but not the declared frame gives InvalidSize, never InvalidCRC. -/
def Obligations.ParseTruncatedFrame : Prop :=
  ∀ s : State, s.eng.srcAddr ≠ 0#32 → minFrameSize s.cfg ≤ s.eng.srcLen.toNat →
    s.srcReachable (offLength s.cfg) → s.srcLength.toNat ≤ s.cfg.maxPayload.size →
    s.eng.srcLen.toNat < headerSize s.cfg + s.srcLength.toNat + 2 →
    exec .parse s = .next (s.onlyStatus 2#4)

/-- R81: step 4. A frame byte unreachable gives BusError; a checksum that does not match the two bytes right after the
payload gives InvalidCRC. -/
def Obligations.ParseIntegrity : Prop :=
  ∀ s : State, s.SourceFits →
    ((∃ i < frameSize s.cfg s.srcLength.toNat, ¬ s.srcReachable i) → exec .parse s = .next (s.onlyStatus 6#4)) ∧
    ((∀ i < frameSize s.cfg s.srcLength.toNat, s.srcReachable i) →
      s.srcComputedCrc s.srcLength.toNat ≠ s.srcReceivedCrc s.srcLength.toNat →
      exec .parse s = .next (s.onlyStatus 3#4))

/-- R82, and R83's list of what PARSE writes: a valid frame gives OK, and every frame register is written from its bytes. -/
def Obligations.ParseValidFrame : Prop :=
  ∀ s : State, s.SourceValid →
    let header : Engine := { s.eng with
      fCategory := s.srcByte 0
      fFlags := if s.cfg.hdrProfile = .extended then s.srcByte 1 else 0#8
      fSequence := s.srcByte (if s.cfg.hdrProfile = .extended then 2 else 1)
      fLength := s.srcByte (if s.cfg.hdrProfile = .extended then 3 else 2)
      fCrc := s.srcReceivedCrc s.srcLength.toNat }
    exec .parse s = .next (State.onlyStatus { s with eng :=
      (header.withPayload s.cfg (s.srcByte 0) s.srcLength.toNat fun i => s.srcByte (headerSize s.cfg + i)) } 0#4)

/-- R76: PARSE completes with OK exactly on a valid frame. -/
def Obligations.ParseOkExactlyWhenValid : Prop :=
  ∀ s t : State, exec .parse s = .next t → (t.eng.statusCode = 0#4 ↔ s.SourceValid)

/-- R83, R84: PARSE's result is a function of the frame's bytes. Two states with the same parameters, the same frame bytes
at their SRC_ADDR and room for the frame in SRC_LEN, whatever else they hold (earlier frame registers, bytes after the
frame), both give OK and the same frame registers. -/
def Obligations.ParseDependsOnFrameBytesOnly : Prop :=
  ∀ s r t : State, s.SourceValid → r.SourceFits → r.cfg = s.cfg → r.srcLength = s.srcLength →
    (∀ i < frameSize s.cfg s.srcLength.toNat, r.srcReachable i ∧ r.srcByte i = s.srcByte i) →
    exec .parse s = .next t →
    ∃ u, exec .parse r = .next u ∧ u.eng.statusCode = 0#4 ∧
      u.eng = { r.eng with
        statusCode := t.eng.statusCode, statusBusy := t.eng.statusBusy, statusDone := t.eng.statusDone
        fCategory := t.eng.fCategory, fFlags := t.eng.fFlags, fSequence := t.eng.fSequence
        fLength := t.eng.fLength, fKind := t.eng.fKind, fCrc := t.eng.fCrc
        fRoll := t.eng.fRoll, fPitch := t.eng.fPitch, fYaw := t.eng.fYaw
        fVoltageMv := t.eng.fVoltageMv, fCurrentMa := t.eng.fCurrentMa, fPercent := t.eng.fPercent
        fRaw := t.eng.fRaw }

/-- R84: bytes after the frame are neither read nor checked: changing any memory byte outside the frame, and growing
SRC_LEN, leaves the result of a valid frame as it is. -/
def Obligations.ParseIgnoresBytesAfterFrame : Prop :=
  ∀ (s t : State) (a : Nat) (v : Byte) (n : Word), s.SourceValid → s.mem.wf = true →
    (a < s.eng.srcAddr.toNat ∨ s.eng.srcAddr.toNat + frameSize s.cfg s.srcLength.toNat ≤ a) →
    frameSize s.cfg s.srcLength.toNat ≤ n.toNat →
    exec .parse s = .next t →
    exec .parse { s with mem := s.mem.write a v, eng := { s.eng with srcLen := n } } =
      .next { t with mem := s.mem.write a v, eng := { t.eng with srcLen := n } }

/-- 90_conflicts C1, from R74 law 3 and R81: flipping any single bit of a valid frame outside its length byte makes PARSE
answer InvalidCRC. -/
def Obligations.ParseDetectsBitFlip : Prop :=
  ∀ (s : State) (i j : Nat), s.SourceValid → s.mem.wf = true → i < frameSize s.cfg s.srcLength.toNat → i ≠ offLength s.cfg →
    j < 8 →
    exec .parse { s with mem := s.mem.write (s.eng.srcAddr.toNat + i) (s.srcByte i ^^^ (1#8 <<< j)) } =
      .next (State.onlyStatus
        { s with mem := s.mem.write (s.eng.srcAddr.toNat + i) (s.srcByte i ^^^ (1#8 <<< j)) } 3#4)

/-! ### Dispatch and FILL -/

/-- R92: FILL in its four cases. On OK the payload registers are those Dispatch gives (R86 to R90), and nothing else but
STATUS changes. -/
def Obligations.FillResult : Prop :=
  encode .fill = .command 0x00000003#32 ∧
  ∀ s : State,
    (s.cfg.maxPayload.size < s.eng.fLength.toNat → exec .fill s = .next (s.onlyStatus 4#4)) ∧
    (s.eng.fLength.toNat ≤ s.cfg.maxPayload.size → 0 < s.eng.fLength.toNat → s.eng.srcAddr = 0#32 →
      exec .fill s = .next (s.onlyStatus 1#4)) ∧
    (s.eng.fLength.toNat ≤ s.cfg.maxPayload.size → s.eng.srcAddr ≠ 0#32 →
      (∃ i < s.eng.fLength.toNat, ¬ s.srcReachable i) → exec .fill s = .next (s.onlyStatus 6#4)) ∧
    (s.eng.fLength.toNat ≤ s.cfg.maxPayload.size → (0 < s.eng.fLength.toNat → s.eng.srcAddr ≠ 0#32) →
      (∀ i < s.eng.fLength.toNat, s.srcReachable i) →
      exec .fill s = .next (State.onlyStatus
        { s with eng := s.eng.withPayload s.cfg s.eng.fCategory s.eng.fLength.toNat s.srcByte } 0#4))

/-- R85: Classify. A known category is typed only when the length is at least the type's size; no category is both. -/
def Obligations.ClassifyByCategoryAndLength : Prop :=
  ∀ (c : Config) (cat : Byte) (len : Nat), c.wf = true →
    (classify c cat len = .telemetry ↔ cat = c.catTelemetry ∧ 12 ≤ len) ∧
    (classify c cat len = .battery ↔ cat = c.catBattery ∧ 5 ≤ len) ∧
    (classify c cat len = .raw ↔ ¬ (cat = c.catTelemetry ∧ 12 ≤ len) ∧ ¬ (cat = c.catBattery ∧ 5 ≤ len))

/-- R91: a known category with too short a payload gives RAW and OK, from FILL and from PARSE, and no typed field. -/
def Obligations.ShortPayloadFallsBackToRaw : Prop :=
  ∀ (i : Instr) (s t : State), (i = .parse ∨ i = .fill) → s.cfg.wf = true → exec i s = .next t →
    t.eng.statusCode = 0#4 →
    (t.eng.fCategory = s.cfg.catTelemetry ∧ t.eng.fLength.toNat < 12 ∨
      t.eng.fCategory = s.cfg.catBattery ∧ t.eng.fLength.toNat < 5) →
    t.eng.fKind = .raw ∧ t.eng.fRoll = 0#32 ∧ t.eng.fPitch = 0#32 ∧ t.eng.fYaw = 0#32 ∧
      t.eng.fVoltageMv = 0#16 ∧ t.eng.fCurrentMa = 0#16 ∧ t.eng.fPercent = 0#8

/-- R99: every state that PARSE or FILL leaves after OK is consistent. -/
def Obligations.ParseAndFillLeaveConsistentFrames : Prop :=
  ∀ (i : Instr) (s t : State), (i = .parse ∨ i = .fill) → exec i s = .next t → t.eng.statusCode = 0#4 →
    t.eng.Consistent s.cfg

/-! ### SERIALIZE -/

/-- R94: SERIALIZE's four checks, in order. A failing check changes STATUS only, so no buffer byte is written. -/
def Obligations.SerializeChecks : Prop :=
  ∀ s : State,
    (s.eng.dstAddr = 0#32 → exec .serialize s = .next (s.onlyStatus 1#4)) ∧
    (s.eng.dstAddr ≠ 0#32 → s.cfg.maxPayload.size < s.eng.fLength.toNat →
      exec .serialize s = .next (s.onlyStatus 4#4)) ∧
    (s.eng.dstAddr ≠ 0#32 → s.eng.fLength.toNat ≤ s.cfg.maxPayload.size →
      s.eng.dstCap.toNat < headerSize s.cfg + s.eng.fLength.toNat + 2 → exec .serialize s = .next (s.onlyStatus 2#4)) ∧
    (s.eng.dstAddr ≠ 0#32 → s.eng.fLength.toNat ≤ s.cfg.maxPayload.size →
      headerSize s.cfg + s.eng.fLength.toNat + 2 ≤ s.eng.dstCap.toNat →
      (∃ i < headerSize s.cfg + s.eng.fLength.toNat + 2, ¬ s.dstReachable i) →
      exec .serialize s = .next (s.onlyStatus 6#4))

/-- R95, R96, R97, R98: on OK, SERIALIZE writes the header, the payload bytes of the raw view and the checksum at
DST_ADDR, sets BYTES_WRITTEN, and changes nothing else: every byte outside the frame reads as before. The premises on
memory and F_RAW are parts of the invariant (`State.Inv`). -/
def Obligations.SerializeWritesFrame : Prop :=
  ∀ s : State, s.DestinationFits → s.mem.wf = true → s.eng.fRaw.length = s.cfg.maxPayload.size →
    ∃ m : Memory,
      exec .serialize s = .next (State.onlyStatus { s with
        mem := m
        eng := { s.eng with
          bytesWritten := BitVec.ofNat 32 (headerSize s.cfg + s.eng.fLength.toNat + 2) } } 0#4) ∧
      (s.cfg.hdrProfile = .minimal →
        m.read s.eng.dstAddr.toNat = s.eng.fCategory ∧
        m.read (s.eng.dstAddr.toNat + 1) = s.eng.fSequence ∧
        m.read (s.eng.dstAddr.toNat + 2) = s.eng.fLength) ∧
      (s.cfg.hdrProfile = .extended →
        m.read s.eng.dstAddr.toNat = s.eng.fCategory ∧
        m.read (s.eng.dstAddr.toNat + 1) = s.eng.fFlags ∧
        m.read (s.eng.dstAddr.toNat + 2) = s.eng.fSequence ∧
        m.read (s.eng.dstAddr.toNat + 3) = s.eng.fLength) ∧
      (∀ i < s.eng.fLength.toNat, m.read (s.eng.dstAddr.toNat + headerSize s.cfg + i) = s.eng.viewByte i) ∧
      (let total := headerSize s.cfg + s.eng.fLength.toNat
       let crc := crc16 ((List.range total).map fun i => m.read (s.eng.dstAddr.toNat + i))
       m.read (s.eng.dstAddr.toNat + total) = crc.extractLsb' 0 8 ∧
       m.read (s.eng.dstAddr.toNat + total + 1) = crc.extractLsb' 8 8) ∧
      (∀ a, (a < s.eng.dstAddr.toNat ∨ s.eng.dstAddr.toNat + (headerSize s.cfg + s.eng.fLength.toNat + 2) ≤ a) →
        m.read a = s.mem.read a)

/-- R101: whatever frame SERIALIZE encodes with OK, consistent or not, PARSE on those bytes completes with OK. -/
def Obligations.SerializedFramesAreValid : Prop :=
  ∀ (s t : State) (n : Word), s.Inv → exec .serialize s = .next t → t.eng.statusCode = 0#4 →
    frameSize s.cfg s.eng.fLength.toNat ≤ n.toNat →
    ∃ u, exec .parse { t with eng := { t.eng with srcAddr := s.eng.dstAddr, srcLen := n } } = .next u ∧
      u.eng.statusCode = 0#4

/-- R100: the round trip. A consistent frame serialized with OK and parsed back gives the same header, the same kind, the
same typed fields of the active kind, and the raw view for F_RAW. What may differ is what R100 says: F_CRC is the checksum
of the bytes written, F_RAW past F_LENGTH is 0, and so are the fields of the inactive variants. -/
def Obligations.SerializeParseRoundTrip : Prop :=
  ∀ (s t : State) (n : Word), s.Inv → s.eng.Consistent s.cfg → exec .serialize s = .next t → t.eng.statusCode = 0#4 →
    frameSize s.cfg s.eng.fLength.toNat ≤ n.toNat →
    ∃ u, exec .parse { t with eng := { t.eng with srcAddr := s.eng.dstAddr, srcLen := n } } = .next u ∧
      u.eng.statusCode = 0#4 ∧
      u.eng.fCategory = s.eng.fCategory ∧ u.eng.fSequence = s.eng.fSequence ∧ u.eng.fLength = s.eng.fLength ∧
      u.eng.fFlags = s.eng.fFlags ∧ u.eng.fKind = s.eng.fKind ∧
      (s.eng.fKind = .telemetry →
        u.eng.fRoll = s.eng.fRoll ∧ u.eng.fPitch = s.eng.fPitch ∧ u.eng.fYaw = s.eng.fYaw) ∧
      (s.eng.fKind = .battery →
        u.eng.fVoltageMv = s.eng.fVoltageMv ∧ u.eng.fCurrentMa = s.eng.fCurrentMa ∧
        u.eng.fPercent = s.eng.fPercent) ∧
      (∀ i < s.eng.fLength.toNat, byteAt u.eng.fRaw i = s.eng.viewByte i) ∧
      (∀ i, s.eng.fLength.toNat ≤ i → byteAt u.eng.fRaw i = 0#8) ∧
      u.eng.fCrc = crc16 ((List.range (headerSize s.cfg + s.eng.fLength.toNat)).map
        fun i => t.mem.read (s.eng.dstAddr.toNat + i)) ∧
      (s.eng.fKind ≠ .telemetry → u.eng.fRoll = 0#32 ∧ u.eng.fPitch = 0#32 ∧ u.eng.fYaw = 0#32) ∧
      (s.eng.fKind ≠ .battery → u.eng.fVoltageMv = 0#16 ∧ u.eng.fCurrentMa = 0#16 ∧ u.eng.fPercent = 0#8)

/-! ### All four commands -/

/-- R112: a command that completes with a code other than OK has changed STATUS and nothing else: each of the four, and
the engine step on any latched word. -/
def Obligations.FailedCommandChangesOnlyStatus : Prop :=
  (∀ (i : Instr) (s : State), (i = .crc16 ∨ i = .parse ∨ i = .fill ∨ i = .serialize) →
    ∃ t, exec i s = .next t ∧ (t.eng.statusCode ≠ 0#4 → t = s.onlyStatus t.eng.statusCode)) ∧
  (∀ s : State, ∃ t, engineStep s = .next t ∧ (t.eng.statusCode ≠ 0#4 → t = s.onlyStatus t.eng.statusCode))

/-- R105, R110, R111, R115 (last paragraph): in every state each command completes, with BUSY = 0, DONE = 1 and a legal
code. It never causes a host fault, and leaves its operand registers, its latch, the other engines, the parameters
and the host's side alone. -/
def Obligations.CommandFrame : Prop :=
  ∀ (i : Instr) (s : State), (i = .crc16 ∨ i = .parse ∨ i = .fill ∨ i = .serialize) →
    ∃ t, exec i s = .next t ∧
      t.eng.statusBusy = false ∧ t.eng.statusDone = true ∧ t.eng.statusCode.toNat ≤ 6 ∧
      t.eng.cmdLatch = s.eng.cmdLatch ∧ t.eng.srcAddr = s.eng.srcAddr ∧ t.eng.srcLen = s.eng.srcLen ∧
      t.eng.dstAddr = s.eng.dstAddr ∧ t.eng.dstCap = s.eng.dstCap ∧
      (i ≠ .crc16 → t.eng.crcResult = s.eng.crcResult) ∧
      (i ≠ .serialize → t.eng.bytesWritten = s.eng.bytesWritten ∧ t.mem = s.mem) ∧
      t.cfg = s.cfg ∧ t.others = s.others ∧ t.hostFault = s.hostFault ∧ t.hostQueue = s.hostQueue ∧
      t.turns = s.turns ∧ t.rdata = s.rdata ∧ t.hostByte = s.hostByte ∧ t.draws = s.draws

/-- R38: the engine never reads or writes address 0. No command's registers depend on the bytes at address 0, and no
command changes the byte there. -/
def Obligations.EngineNeverTouchesNull : Prop :=
  ∀ (i : Instr) (s : State) (m : Memory), (i = .crc16 ∨ i = .parse ∨ i = .fill ∨ i = .serialize) →
    s.mem.wf = true → (∀ a, a ≠ 0 → m.read a = s.mem.read a) →
    ∃ t u, exec i s = .next t ∧ exec i { s with mem := m } = .next u ∧ u.eng = t.eng ∧ t.mem.read 0 = s.mem.read 0

/-! ### Host transactions -/

/-- R48: a register access at a misaligned offset or outside the window is a host fault that leaves registers and memory
unchanged, and so is one that is not of 32 bits. R69: so is a transaction whose selector has OFFSET[1:0] not 0. An access of
32 bits is the REG_READ or REG_WRITE at its offset. The model's choice in it: a write not of 32 bits while BUSY = 1 breaks R48
and R124 both, and the reason recorded is BadRegisterAccess (log entry 19). -/
def Obligations.BadRegisterAccessFaults : Prop :=
  (∀ (s : State) (off : Nat) (v : Word), (off % 4 ≠ 0 ∨ 0x200 ≤ off) →
    exec (.regRead off) s = .next { s with hostFault := some .badRegisterAccess } ∧
    exec (.regWrite off v) s = .next { s with hostFault := some .badRegisterAccess }) ∧
  (∀ (s : State) (write : Bool) (width off : Nat) (v : Word), width ≠ 32 →
    hostAccess write width off v s = .next { s with hostFault := some .badRegisterAccess }) ∧
  (∀ (s : State) (sel : BitVec 10) (v : Word), sel.extractLsb' 0 2 ≠ 0#2 →
    hostTransaction sel v s = .next { s with hostFault := some .badRegisterAccess }) ∧
  (∀ (s : State) (off : Nat) (v : Word),
    hostAccess false 32 off v s = exec (.regRead off) s ∧ hostAccess true 32 off v s = exec (.regWrite off v) s)

/-- R103, with BUSY = 0: what a read of each register of R12 returns. -/
def Obligations.RegisterReadValues : Prop :=
  ∀ s : State, s.eng.statusBusy = false →
    exec (.regRead 0x000) s = .next { s with rdata := 0#32 } ∧
    exec (.regRead 0x010) s = .next { s with rdata := s.eng.srcAddr } ∧
    exec (.regRead 0x014) s = .next { s with rdata := s.eng.srcLen } ∧
    exec (.regRead 0x018) s = .next { s with rdata := s.eng.dstAddr } ∧
    exec (.regRead 0x01C) s = .next { s with rdata := s.eng.dstCap } ∧
    exec (.regRead 0x020) s = .next { s with rdata := s.eng.crcResult.setWidth 32 } ∧
    exec (.regRead 0x024) s = .next { s with rdata := s.eng.bytesWritten } ∧
    exec (.regRead 0x040) s = .next { s with rdata := s.eng.fCategory.setWidth 32 } ∧
    (s.cfg.hdrProfile = .minimal → exec (.regRead 0x044) s = .next { s with rdata := 0#32 }) ∧
    (s.cfg.hdrProfile = .extended → exec (.regRead 0x044) s = .next { s with rdata := s.eng.fFlags.setWidth 32 }) ∧
    exec (.regRead 0x048) s = .next { s with rdata := s.eng.fSequence.setWidth 32 } ∧
    exec (.regRead 0x04C) s = .next { s with rdata := s.eng.fLength.setWidth 32 } ∧
    (s.eng.fKind = .raw → exec (.regRead 0x050) s = .next { s with rdata := 0#32 }) ∧
    (s.eng.fKind = .telemetry → exec (.regRead 0x050) s = .next { s with rdata := 1#32 }) ∧
    (s.eng.fKind = .battery → exec (.regRead 0x050) s = .next { s with rdata := 2#32 }) ∧
    exec (.regRead 0x054) s = .next { s with rdata := s.eng.fCrc.setWidth 32 } ∧
    exec (.regRead 0x058) s = .next { s with rdata := s.eng.fRoll } ∧
    exec (.regRead 0x05C) s = .next { s with rdata := s.eng.fPitch } ∧
    exec (.regRead 0x060) s = .next { s with rdata := s.eng.fYaw } ∧
    exec (.regRead 0x064) s = .next { s with rdata := s.eng.fVoltageMv.setWidth 32 } ∧
    exec (.regRead 0x068) s = .next { s with rdata := s.eng.fCurrentMa.setWidth 32 } ∧
    exec (.regRead 0x06C) s = .next { s with rdata := s.eng.fPercent.setWidth 32 }

/-- R16, R17: STATUS and CONFIG read as their fields, whether or not a command is pending. -/
def Obligations.StatusAndConfigRead : Prop :=
  ∀ s : State, ∃ t u,
    exec (.regRead 0x004) s = .next t ∧ t = { s with rdata := t.rdata } ∧
    t.rdata.extractLsb' 0 4 = s.eng.statusCode ∧ t.rdata.getLsbD 4 = s.eng.statusBusy ∧
    t.rdata.getLsbD 5 = s.eng.statusDone ∧ t.rdata.extractLsb' 6 26 = 0#26 ∧
    exec (.regRead 0x008) s = .next u ∧ u = { s with rdata := u.rdata } ∧
    (u.rdata.getLsbD 0 = true ↔ s.cfg.hdrProfile = .extended) ∧ u.rdata.extractLsb' 1 3 = 0#3 ∧
    u.rdata.extractLsb' 4 4 = BitVec.ofNat 4 (headerSize s.cfg) ∧
    u.rdata.extractLsb' 8 8 = BitVec.ofNat 8 s.cfg.maxPayload.size ∧
    u.rdata.extractLsb' 16 8 = s.cfg.catTelemetry ∧ u.rdata.extractLsb' 24 8 = s.cfg.catBattery

/-- R125: while BUSY = 1 a read of any admitted offset but STATUS and CONFIG returns the next free value. No statement
rests on what that value is. -/
def Obligations.ReadsWhileBusyAreFree : Prop :=
  ∀ (s : State) (off : Nat), s.eng.statusBusy = true → off % 4 = 0 → off < 0x200 → off ≠ 0x004 → off ≠ 0x008 →
    exec (.regRead off) s = .next { s with rdata := Config.busyRead s.draws, draws := s.draws + 1 }

/-- R103: a read has no side effect on any state: at an admitted offset nothing changes but the returned data and the
count of free values drawn. -/
def Obligations.RegisterReadFrame : Prop :=
  ∀ (s : State) (off : Nat), off % 4 = 0 → off < 0x200 →
    ∃ t, exec (.regRead off) s = .next t ∧ t = { s with rdata := t.rdata, draws := t.draws } ∧
      (s.eng.statusBusy = false → t.draws = s.draws)

/-- R124: any register write while BUSY = 1 is a host fault, whatever the offset holds. -/
def Obligations.RegisterWriteWhileBusyFaults : Prop :=
  ∀ (s : State) (off : Nat) (v : Word), s.eng.statusBusy = true → off % 4 = 0 → off < 0x200 →
    exec (.regWrite off v) s = .next { s with hostFault := some .registerWriteWhileBusy }

/-- R102, R13, R28, with BUSY = 0: what a write to each read/write register stores, and that it changes nothing else. -/
def Obligations.RegisterWriteEffects : Prop :=
  ∀ (s : State) (v : Word), s.eng.statusBusy = false →
    exec (.regWrite 0x010 v) s = .next { s with eng := { s.eng with srcAddr := v } } ∧
    exec (.regWrite 0x014 v) s = .next { s with eng := { s.eng with srcLen := v } } ∧
    exec (.regWrite 0x018 v) s = .next { s with eng := { s.eng with dstAddr := v } } ∧
    exec (.regWrite 0x01C v) s = .next { s with eng := { s.eng with dstCap := v } } ∧
    exec (.regWrite 0x040 v) s = .next { s with eng := { s.eng with fCategory := v.extractLsb' 0 8 } } ∧
    (s.cfg.hdrProfile = .minimal → exec (.regWrite 0x044 v) s = .next s) ∧
    (s.cfg.hdrProfile = .extended →
      exec (.regWrite 0x044 v) s = .next { s with eng := { s.eng with fFlags := v.extractLsb' 0 8 } }) ∧
    exec (.regWrite 0x048 v) s = .next { s with eng := { s.eng with fSequence := v.extractLsb' 0 8 } } ∧
    exec (.regWrite 0x04C v) s = .next { s with eng := { s.eng with fLength := v.extractLsb' 0 8 } } ∧
    (v.extractLsb' 0 2 = 0#2 → exec (.regWrite 0x050 v) s = .next { s with eng := { s.eng with fKind := .raw } }) ∧
    (v.extractLsb' 0 2 = 1#2 →
      exec (.regWrite 0x050 v) s = .next { s with eng := { s.eng with fKind := .telemetry } }) ∧
    (v.extractLsb' 0 2 = 2#2 →
      exec (.regWrite 0x050 v) s = .next { s with eng := { s.eng with fKind := .battery } }) ∧
    (v.extractLsb' 0 2 = 3#2 → exec (.regWrite 0x050 v) s = .next s) ∧
    exec (.regWrite 0x054 v) s = .next { s with eng := { s.eng with fCrc := v.extractLsb' 0 16 } } ∧
    exec (.regWrite 0x058 v) s = .next { s with eng := { s.eng with fRoll := v } } ∧
    exec (.regWrite 0x05C v) s = .next { s with eng := { s.eng with fPitch := v } } ∧
    exec (.regWrite 0x060 v) s = .next { s with eng := { s.eng with fYaw := v } } ∧
    exec (.regWrite 0x064 v) s = .next { s with eng := { s.eng with fVoltageMv := v.extractLsb' 0 16 } } ∧
    exec (.regWrite 0x068 v) s = .next { s with eng := { s.eng with fCurrentMa := v.extractLsb' 0 16 } } ∧
    exec (.regWrite 0x06C v) s = .next { s with eng := { s.eng with fPercent := v.extractLsb' 0 8 } }

/-- R14, and R16, R17, R22, R23 for writes: a reserved offset reads 0 and ignores writes; the read-only registers ignore
writes. -/
def Obligations.ReservedAndReadOnlyOffsets : Prop :=
  (∀ (s : State) (off : Nat) (v : Word), s.eng.statusBusy = false → off % 4 = 0 →
    (off = 0x00C ∨ 0x028 ≤ off ∧ off ≤ 0x03C ∨ 0x070 ≤ off ∧ off ≤ 0x0FC) →
    exec (.regRead off) s = .next { s with rdata := 0#32 } ∧ exec (.regWrite off v) s = .next s) ∧
  (∀ (s : State) (off : Nat) (v : Word), s.eng.statusBusy = false →
    (off = 0x004 ∨ off = 0x008 ∨ off = 0x020 ∨ off = 0x024) → exec (.regWrite off v) s = .next s)

/-- R47, R32: the F_RAW window. Word `k` reads as F_RAW[4k] to F_RAW[4k+3], little-endian, and a write sets exactly those
of the four bytes that exist. The premise on F_RAW's length is part of the invariant. -/
def Obligations.RawWindowPacking : Prop :=
  ∀ (s : State) (k : Nat) (v : Word), s.eng.statusBusy = false → s.eng.fRaw.length = s.cfg.maxPayload.size → k < 64 →
    (∃ t, exec (.regRead (0x100 + 4 * k)) s = .next t ∧ t = { s with rdata := t.rdata } ∧
      ∀ j < 4, t.rdata.extractLsb' (8 * j) 8 =
        if 4 * k + j < s.cfg.maxPayload.size then byteAt s.eng.fRaw (4 * k + j) else 0#8) ∧
    (∃ t, exec (.regWrite (0x100 + 4 * k) v) s = .next t ∧ t = { s with eng := { s.eng with fRaw := t.eng.fRaw } } ∧
      t.eng.fRaw.length = s.cfg.maxPayload.size ∧
      (∀ j < 4, 4 * k + j < s.cfg.maxPayload.size → byteAt t.eng.fRaw (4 * k + j) = v.extractLsb' (8 * j) 8) ∧
      (∀ i, (i < 4 * k ∨ 4 * k + 4 ≤ i) → byteAt t.eng.fRaw i = byteAt s.eng.fRaw i))

/-- R104, R126: a CMD write latches the word, sets BUSY and clears CODE and DONE, changing nothing else, when no byte is
written by the new command and read or written by a command pending on another engine, or read by the new command and
written by that one; and is a host fault when there is such a byte. That the faulting write does not issue the command is
the model's choice (log entry 10). -/
def Obligations.CommandIssue : Prop :=
  ∀ (s : State) (v : Word), s.eng.statusBusy = false →
    let new : Engine := { s.eng with cmdLatch := v }
    let conflict : Prop := ∃ f ∈ s.others, f.statusBusy = true ∧ ∃ a,
      new.WritesAt s.cfg a ∧ f.ReadsAt a ∨
      new.WritesAt s.cfg a ∧ f.WritesAt s.cfg a ∨
      new.ReadsAt a ∧ f.WritesAt s.cfg a
    (¬ conflict → exec (.regWrite 0x000 v) s = .next { s with eng :=
        { s.eng with cmdLatch := v, statusCode := 0#4, statusBusy := true, statusDone := false } }) ∧
    (conflict → exec (.regWrite 0x000 v) s = .next { s with hostFault := some .bufferAccessWhileBusy })

/-- R118, R123, R126: when PARSE is pending on one engine and SERIALIZE is issued on another, it is a host fault exactly
when some existing 32-bit address lies both in the buffer PARSE reads and in the frame SERIALIZE would write. -/
def Obligations.SerializeIntoPendingParseFaults : Prop :=
  ∀ (s : State) (f : Engine), s.hostFault = none → s.eng.statusBusy = false → s.others = [f] → f.statusBusy = true →
    f.cmdLatch = 0x00000002#32 →
    ∃ t, exec (.regWrite 0x000 0x00000004#32) s = .next t ∧ t.mem = s.mem ∧
      (t.hostFault = some .bufferAccessWhileBusy ↔
        ∃ a < 2 ^ 32, f.srcAddr.toNat ≤ a ∧ a < f.srcAddr.toNat + f.srcLen.toNat ∧
          s.eng.dstAddr.toNat ≤ a ∧ a < s.eng.dstAddr.toNat + (headerSize s.cfg + s.eng.fLength.toNat + 2))

/-! ### Steps of the whole system -/

/-- R9, R105: a step runs the decoded instruction. With engine `k` pending and its turn, the step is the latched command
at that engine; with the host's turn and a transaction as its next action, the step is that transaction at the engine
it names. `State.onEngine` puts the engine in focus and back. -/
def Obligations.StepRunsDecodedInstruction : Prop :=
  ∀ (s : State) (i : Instr), s.cfg.wf = true → s.hostFault = none →
    (∀ k ts e, s.turns = .engine k :: ts → s.engines[k]? = some e → e.statusBusy = true → decodeCommand e.cmdLatch = .ok i →
      step s = State.onEngine { s with turns := ts } k (exec i)) ∧
    (∀ k ts base sel wdata rest, s.turns = .host :: ts → s.hostQueue = .transact base sel wdata :: rest →
      s.engineAt base = some k → decodeTransaction sel wdata = .ok i →
      step s = State.onEngine { s with turns := ts, hostQueue := rest } k (exec i))

/-- R115: once a host fault is recorded no agent takes another step. -/
def Obligations.HostFaultIsSticky : Prop :=
  ∀ (s : State) (r : HostFaultReason), s.cfg.wf = true → s.hostFault = some r → step s = .fault (.hostFaultRecorded r)

/-- R109: in a final state nothing happens. -/
def Obligations.FinalStateIsIdle : Prop :=
  ∀ s : State, s.cfg.wf = true → s.Final → step s = .next s

/-- R123: the read range and the write range of each command word, clipped to 2^32. -/
def Obligations.PendingRanges : Prop :=
  ∀ (c : Config) (e : Engine) (a : Nat),
    ((e.cmdLatch = 0x00000001#32 ∨ e.cmdLatch = 0x00000002#32) →
      (e.readSpan.has a = true ↔ e.srcAddr.toNat ≤ a ∧ a < e.srcAddr.toNat + e.srcLen.toNat ∧ a < 2 ^ 32) ∧
      (e.writeSpan c).has a = false) ∧
    (e.cmdLatch = 0x00000003#32 →
      (e.readSpan.has a = true ↔ e.srcAddr.toNat ≤ a ∧ a < e.srcAddr.toNat + e.fLength.toNat ∧ a < 2 ^ 32) ∧
      (e.writeSpan c).has a = false) ∧
    (e.cmdLatch = 0x00000004#32 →
      e.readSpan.has a = false ∧
      ((e.writeSpan c).has a = true ↔
        e.dstAddr.toNat ≤ a ∧ a < e.dstAddr.toNat + (headerSize c + e.fLength.toNat + 2) ∧ a < 2 ^ 32)) ∧
    (e.cmdLatch ≠ 0x00000001#32 → e.cmdLatch ≠ 0x00000002#32 → e.cmdLatch ≠ 0x00000003#32 → e.cmdLatch ≠ 0x00000004#32 →
      e.readSpan.has a = false ∧ (e.writeSpan c).has a = false)

/-- R126, the host's accesses: a write into a pending command's read or write range and a read of its write range are
host faults that change no byte; every other access is done, and a read of a read range returns the unchanged byte. -/
def Obligations.HostBufferAccess : Prop :=
  ∀ (s : State) (a : Nat) (v : Byte) (ts : List Turn) (rest : List HostAction),
    s.cfg.wf = true → s.hostFault = none → s.turns = .host :: ts → admits s.cfg a = true →
    let isRead := ∃ e ∈ s.engines, e.statusBusy = true ∧ e.readSpan.has a = true
    let isWritten := ∃ e ∈ s.engines, e.statusBusy = true ∧ (e.writeSpan s.cfg).has a = true
    (s.hostQueue = .memWrite a v :: rest → isRead ∨ isWritten →
      step s = .next { s with turns := ts, hostQueue := rest, hostFault := some .bufferAccessWhileBusy }) ∧
    (s.hostQueue = .memWrite a v :: rest → ¬ (isRead ∨ isWritten) →
      step s = .next { s with turns := ts, hostQueue := rest, mem := s.mem.write a v }) ∧
    (s.hostQueue = .memRead a :: rest → isWritten →
      step s = .next { s with turns := ts, hostQueue := rest, hostFault := some .bufferAccessWhileBusy }) ∧
    (s.hostQueue = .memRead a :: rest → ¬ isWritten →
      step s = .next { s with turns := ts, hostQueue := rest, hostByte := s.mem.read a })

/-- R49: with no command pending, the host's buffer-memory accesses store and return one byte, and an access where
MEM_ADMITS is false has no step. -/
def Obligations.HostMemoryAccess : Prop :=
  ∀ (s : State) (a : Nat) (v : Byte) (rest : List HostAction),
    s.cfg.wf = true → s.hostFault = none → (∀ e ∈ s.engines, e.statusBusy = false) → s.turns = [] → s.mem.wf = true →
    (s.hostQueue = .memWrite a v :: rest → admits s.cfg a = true →
      ∃ m, step s = .next { s with hostQueue := rest, mem := m } ∧ m.read a = v ∧ ∀ b, b ≠ a → m.read b = s.mem.read b) ∧
    (s.hostQueue = .memRead a :: rest → admits s.cfg a = true →
      step s = .next { s with hostQueue := rest, hostByte := s.mem.read a }) ∧
    (s.hostQueue = .memWrite a v :: rest → admits s.cfg a = false → step s = .fault .hostStuck) ∧
    (s.hostQueue = .memRead a :: rest → admits s.cfg a = false → step s = .fault .hostStuck)

/-- R70, R118: `WAIT` reads STATUS of the engine it names, and is repeated until the BUSY bit read is 0. That each read is
one host action is the model's form (log entry 16). -/
def Obligations.WaitPollsStatus : Prop :=
  ∀ (s : State) (base k : Nat) (e : Engine) (ts : List Turn) (rest : List HostAction),
    s.cfg.wf = true → s.hostFault = none → s.turns = .host :: ts → s.hostQueue = .wait base :: rest →
    s.engineAt base = some k → s.engines[k]? = some e →
    step s = .next { s with
      turns := ts
      rdata := statusWord e
      hostQueue := if e.statusBusy then .wait base :: rest else rest }

/-- R120: reset of an engine sets every register of it to its reset value, drops a pending command, and leaves buffer
memory as it is. R118: any engine of the platform may be the one reset. That the reset input is a host-list action for one
engine, which leaves the other engines as they are, is the model's reading (log entry 13). -/
def Obligations.ResetSetsEveryRegister : Prop :=
  ∀ (s : State) (base k : Nat) (ts : List Turn) (rest : List HostAction),
    s.cfg.wf = true → s.hostFault = none → s.turns = .host :: ts → s.hostQueue = .reset base :: rest →
    s.engineAt base = some k →
    ∃ t, step s = .next t ∧
      t = { s with turns := ts, hostQueue := rest, eng := t.eng, others := t.others } ∧
      t.engines = s.engines.set k
        { cmdLatch := 0#32, statusCode := 0#4, statusBusy := false, statusDone := false
          srcAddr := 0#32, srcLen := 0#32, dstAddr := 0#32, dstCap := 0#32, crcResult := 0#16, bytesWritten := 0#32
          fCategory := 0#8, fFlags := 0#8, fSequence := 0#8, fLength := 0#8, fKind := .raw, fCrc := 0#16
          fRoll := 0#32, fPitch := 0#32, fYaw := 0#32, fVoltageMv := 0#16, fCurrentMa := 0#16, fPercent := 0#8
          fRaw := List.replicate s.cfg.maxPayload.size 0#8 }

/-- R120, R99: the registers right after reset are consistent and no engine is pending, for every admitted build with one
engine, and the state satisfies the invariant. The model's choices in it: that the state is final rests on the host's list
being empty at reset (log entry 5), one engine and empty memory on log entries 12 and 2, and `State.reset` on the reference
configuration and its window base (log entries 1 and 4). -/
def Obligations.ResetStateIsConsistent : Prop :=
  (∀ c : Config, c.wf = true → c.windowBases.length = 1 →
    (State.resetWith c).Inv ∧ (State.resetWith c).eng.Consistent c ∧ (State.resetWith c).Final) ∧
  State.reset.Inv

/-- The invariant holds along every step, in every state that meets it, for every interleaving: memory stays canonical
and only existing addresses hold bytes (R36), STATUS stays legal (R16, R110), F_FLAGS stays 0 in MINIMAL (R25), F_RAW
keeps its size (R32), no two pending commands conflict (R118); and the parameters never change (R1 to R6). The last clause
says in addresses what no conflict is: a byte that one pending command writes is neither read nor written by another. -/
def Obligations.StepKeepsInvariant : Prop :=
  ∀ s t : State, s.Inv → step s = .next t → t.Inv ∧ t.cfg = s.cfg ∧ t.BuffersApart

/-- R55: a command performs with the values present at its CMD write. While engine `k` is pending and no host fault is
recorded, a step that leaves it pending leaves all its registers and every byte of its read range as they were. -/
def Obligations.PendingCommandSeesItsOperands : Prop :=
  ∀ (s t : State) (k : Nat) (e f : Engine), s.Inv → step s = .next t → t.hostFault = none →
    s.engines[k]? = some e → e.statusBusy = true → t.engines[k]? = some f → f.statusBusy = true →
    f = e ∧ ∀ a, e.readSpan.has a = true → t.mem.read a = s.mem.read a

/-- R105, R107: within as many steps as there are turns chosen and engines, a pending command completes: the run reaches the
state that the engine step of that very command answers, with DONE = 1. Otherwise the host has broken the contract (R115)
on the way, or a reset of that engine that was in the host's list has dropped the command (R120). No step before is stuck.
Rests on log entry 6: with no turn chosen the pending engine steps. -/
def Obligations.PendingCommandCompletes : Prop :=
  ∀ (s : State) (k : Nat) (e : Engine), s.Inv → s.hostFault = none → s.engines[k]? = some e → e.statusBusy = true →
    ∃ n ≤ s.turns.length + s.engines.length, ∃ t, s.run n = .next t ∧
      ((∃ m u f, n = m + 1 ∧ s.run m = .next u ∧ u.engines[k]? = some e ∧
          State.onEngine { u with turns := t.turns } k engineStep = .next t ∧
          t.engines[k]? = some f ∧ f.statusBusy = false ∧ f.statusDone = true) ∨
        t.hostFault ≠ none ∨
        (t.engines[k]? = some (Engine.reset s.cfg) ∧
          ∃ base, s.engineAt base = some k ∧ HostAction.reset base ∈ s.hostQueue))

/-- R118: a step of one engine leaves every other engine's state as it was. -/
def Obligations.EngineStepLeavesOthersAlone : Prop :=
  ∀ (s t : State) (k j : Nat) (ts : List Turn), s.cfg.wf = true → s.hostFault = none → s.turns = .engine k :: ts →
    engineEnabled s k = true → j ≠ k → step s = .next t → t.engines[j]? = s.engines[j]?

/-! ### Host programs -/

/-- R48, R69: at a step of the host, a transaction whose selector has OFFSET[1:0] not 0 and an access not of 32 bits
record BadRegisterAccess and change nothing else, and an access of 32 bits is the REG_READ or REG_WRITE at the engine it
names. That the action has left the host's list is the model's form (log entry 15). That the reason is BadRegisterAccess for a
write not of 32 bits while BUSY = 1, which breaks R124 too, is the model's choice (log entry 19). -/
def Obligations.StepRunsHostAccess : Prop :=
  ∀ (s : State) (base k : Nat) (v : Word) (ts : List Turn) (rest : List HostAction),
    s.cfg.wf = true → s.hostFault = none → s.turns = .host :: ts → s.engineAt base = some k →
    (∀ sel : BitVec 10, s.hostQueue = .transact base sel v :: rest → sel.extractLsb' 0 2 ≠ 0#2 →
      step s = .next { s with turns := ts, hostQueue := rest, hostFault := some .badRegisterAccess }) ∧
    (∀ write width off, s.hostQueue = .access base write width off v :: rest → width ≠ 32 →
      step s = .next { s with turns := ts, hostQueue := rest, hostFault := some .badRegisterAccess }) ∧
    (∀ off, s.hostQueue = .access base false 32 off v :: rest →
      step s = State.onEngine { s with turns := ts, hostQueue := rest } k (exec (.regRead off))) ∧
    (∀ off, s.hostQueue = .access base true 32 off v :: rest →
      step s = State.onEngine { s with turns := ts, hostQueue := rest } k (exec (.regWrite off v)))

/-- R70: the lines `WR`, `RD` and `RD == v` run as REG_WRITE and REG_READ at exactly the offset they give, at every offset:
one that is misaligned or outside the window is R102's host fault, never another register. That the action has left the
host's list is the model's form (log entry 15). -/
def Obligations.RegisterLinesRunTransactions : Prop :=
  ∀ (s : State) (base k off : Nat) (v : Word) (ts : List Turn) (rest : List HostAction),
    s.cfg.wf = true → s.hostFault = none → s.turns = .host :: ts → s.engineAt base = some k →
    (s.hostQueue = (HostLine.wr off v).expand base ++ rest →
      step s = State.onEngine { s with turns := ts, hostQueue := rest } k (exec (.regWrite off v))) ∧
    (s.hostQueue = (HostLine.rd off).expand base ++ rest →
      step s = State.onEngine { s with turns := ts, hostQueue := rest } k (exec (.regRead off))) ∧
    (s.hostQueue = (HostLine.rdEq off v).expand base ++ rest →
      step s = State.onEngine { s with turns := ts, hostQueue := rest } k (exec (.regRead off)))

/-- R70, R47: what the other lines expand to. `CMD` writes the word of R58 to CMD. `MEMW` and `MEMR` are one byte access for
each address, upward. `WRRAW` writes one window word for each word touched, with 0 for the bytes past the list. R70 gives
`WAIT` as `RD STATUS` repeated; that it is one action, which repeats the read itself, is the model's form (log entry 16). -/
def Obligations.ProgramLinesExpand : Prop :=
  ∀ base : Nat,
    (HostLine.cmd .crc16).expand base = (HostLine.wr 0x000 0x00000001#32).expand base ∧
    (HostLine.cmd .parse).expand base = (HostLine.wr 0x000 0x00000002#32).expand base ∧
    (HostLine.cmd .fill).expand base = (HostLine.wr 0x000 0x00000003#32).expand base ∧
    (HostLine.cmd .serialize).expand base = (HostLine.wr 0x000 0x00000004#32).expand base ∧
    HostLine.wait.expand base = [.wait base] ∧
    (∀ (addr : Nat) (bs : List Byte), (HostLine.memw addr bs).expand base =
      (List.range bs.length).map fun i => .memWrite (addr + i) (byteAt bs i)) ∧
    (∀ addr n : Nat, (HostLine.memr addr n).expand base = (List.range n).map fun i => .memRead (addr + i)) ∧
    (∀ (i : Nat) (bs : List Byte), i % 4 = 0 → (HostLine.wrraw i bs).expand base =
      (List.range ((bs.length + 3) / 4)).flatMap fun j => (HostLine.wr (0x100 + i + 4 * j)
        (le32 (byteAt bs (4 * j)) (byteAt bs (4 * j + 1)) (byteAt bs (4 * j + 2)) (byteAt bs (4 * j + 3)))).expand base)
end

