-- ==== Sys2Proof/Laws/State.lean ====
section
/-! SUPPORT. One lemma per field and update, so that no proof unfolds a record update; and what swapping engines does. -/

namespace Sys2Proof.Machine

/-! ### `Engine.finish` -/

@[simp] theorem Engine.finish_cmdLatch (e : Engine) (code : ResultCode) : (e.finish code).cmdLatch = e.cmdLatch := rfl
@[simp] theorem Engine.finish_statusCode (e : Engine) (code : ResultCode) : (e.finish code).statusCode = code.bits := rfl
@[simp] theorem Engine.finish_statusBusy (e : Engine) (code : ResultCode) : (e.finish code).statusBusy = false := rfl
@[simp] theorem Engine.finish_statusDone (e : Engine) (code : ResultCode) : (e.finish code).statusDone = true := rfl
@[simp] theorem Engine.finish_srcAddr (e : Engine) (code : ResultCode) : (e.finish code).srcAddr = e.srcAddr := rfl
@[simp] theorem Engine.finish_srcLen (e : Engine) (code : ResultCode) : (e.finish code).srcLen = e.srcLen := rfl
@[simp] theorem Engine.finish_dstAddr (e : Engine) (code : ResultCode) : (e.finish code).dstAddr = e.dstAddr := rfl
@[simp] theorem Engine.finish_dstCap (e : Engine) (code : ResultCode) : (e.finish code).dstCap = e.dstCap := rfl
@[simp] theorem Engine.finish_crcResult (e : Engine) (code : ResultCode) : (e.finish code).crcResult = e.crcResult := rfl
@[simp] theorem Engine.finish_bytesWritten (e : Engine) (code : ResultCode) : (e.finish code).bytesWritten = e.bytesWritten := rfl
@[simp] theorem Engine.finish_fCategory (e : Engine) (code : ResultCode) : (e.finish code).fCategory = e.fCategory := rfl
@[simp] theorem Engine.finish_fFlags (e : Engine) (code : ResultCode) : (e.finish code).fFlags = e.fFlags := rfl
@[simp] theorem Engine.finish_fSequence (e : Engine) (code : ResultCode) : (e.finish code).fSequence = e.fSequence := rfl
@[simp] theorem Engine.finish_fLength (e : Engine) (code : ResultCode) : (e.finish code).fLength = e.fLength := rfl
@[simp] theorem Engine.finish_fKind (e : Engine) (code : ResultCode) : (e.finish code).fKind = e.fKind := rfl
@[simp] theorem Engine.finish_fCrc (e : Engine) (code : ResultCode) : (e.finish code).fCrc = e.fCrc := rfl
@[simp] theorem Engine.finish_fRoll (e : Engine) (code : ResultCode) : (e.finish code).fRoll = e.fRoll := rfl
@[simp] theorem Engine.finish_fPitch (e : Engine) (code : ResultCode) : (e.finish code).fPitch = e.fPitch := rfl
@[simp] theorem Engine.finish_fYaw (e : Engine) (code : ResultCode) : (e.finish code).fYaw = e.fYaw := rfl
@[simp] theorem Engine.finish_fVoltageMv (e : Engine) (code : ResultCode) : (e.finish code).fVoltageMv = e.fVoltageMv := rfl
@[simp] theorem Engine.finish_fCurrentMa (e : Engine) (code : ResultCode) : (e.finish code).fCurrentMa = e.fCurrentMa := rfl
@[simp] theorem Engine.finish_fPercent (e : Engine) (code : ResultCode) : (e.finish code).fPercent = e.fPercent := rfl
@[simp] theorem Engine.finish_fRaw (e : Engine) (code : ResultCode) : (e.finish code).fRaw = e.fRaw := rfl

/-! ### `Engine.issue` -/

@[simp] theorem Engine.issue_cmdLatch (e : Engine) (v : Word) : (e.issue v).cmdLatch = v := rfl
@[simp] theorem Engine.issue_statusCode (e : Engine) (v : Word) : (e.issue v).statusCode = 0#4 := rfl
@[simp] theorem Engine.issue_statusBusy (e : Engine) (v : Word) : (e.issue v).statusBusy = true := rfl
@[simp] theorem Engine.issue_statusDone (e : Engine) (v : Word) : (e.issue v).statusDone = false := rfl
@[simp] theorem Engine.issue_srcAddr (e : Engine) (v : Word) : (e.issue v).srcAddr = e.srcAddr := rfl
@[simp] theorem Engine.issue_srcLen (e : Engine) (v : Word) : (e.issue v).srcLen = e.srcLen := rfl
@[simp] theorem Engine.issue_dstAddr (e : Engine) (v : Word) : (e.issue v).dstAddr = e.dstAddr := rfl
@[simp] theorem Engine.issue_dstCap (e : Engine) (v : Word) : (e.issue v).dstCap = e.dstCap := rfl
@[simp] theorem Engine.issue_crcResult (e : Engine) (v : Word) : (e.issue v).crcResult = e.crcResult := rfl
@[simp] theorem Engine.issue_bytesWritten (e : Engine) (v : Word) : (e.issue v).bytesWritten = e.bytesWritten := rfl
@[simp] theorem Engine.issue_fCategory (e : Engine) (v : Word) : (e.issue v).fCategory = e.fCategory := rfl
@[simp] theorem Engine.issue_fFlags (e : Engine) (v : Word) : (e.issue v).fFlags = e.fFlags := rfl
@[simp] theorem Engine.issue_fSequence (e : Engine) (v : Word) : (e.issue v).fSequence = e.fSequence := rfl
@[simp] theorem Engine.issue_fLength (e : Engine) (v : Word) : (e.issue v).fLength = e.fLength := rfl
@[simp] theorem Engine.issue_fKind (e : Engine) (v : Word) : (e.issue v).fKind = e.fKind := rfl
@[simp] theorem Engine.issue_fCrc (e : Engine) (v : Word) : (e.issue v).fCrc = e.fCrc := rfl
@[simp] theorem Engine.issue_fRoll (e : Engine) (v : Word) : (e.issue v).fRoll = e.fRoll := rfl
@[simp] theorem Engine.issue_fPitch (e : Engine) (v : Word) : (e.issue v).fPitch = e.fPitch := rfl
@[simp] theorem Engine.issue_fYaw (e : Engine) (v : Word) : (e.issue v).fYaw = e.fYaw := rfl
@[simp] theorem Engine.issue_fVoltageMv (e : Engine) (v : Word) : (e.issue v).fVoltageMv = e.fVoltageMv := rfl
@[simp] theorem Engine.issue_fCurrentMa (e : Engine) (v : Word) : (e.issue v).fCurrentMa = e.fCurrentMa := rfl
@[simp] theorem Engine.issue_fPercent (e : Engine) (v : Word) : (e.issue v).fPercent = e.fPercent := rfl
@[simp] theorem Engine.issue_fRaw (e : Engine) (v : Word) : (e.issue v).fRaw = e.fRaw := rfl

/-! ### `Engine.writePayload` -/

@[simp] theorem Engine.writePayload_cmdLatch (e : Engine) (p : Payload) : (e.writePayload p).cmdLatch = e.cmdLatch := rfl
@[simp] theorem Engine.writePayload_statusCode (e : Engine) (p : Payload) : (e.writePayload p).statusCode = e.statusCode := rfl
@[simp] theorem Engine.writePayload_statusBusy (e : Engine) (p : Payload) : (e.writePayload p).statusBusy = e.statusBusy := rfl
@[simp] theorem Engine.writePayload_statusDone (e : Engine) (p : Payload) : (e.writePayload p).statusDone = e.statusDone := rfl
@[simp] theorem Engine.writePayload_srcAddr (e : Engine) (p : Payload) : (e.writePayload p).srcAddr = e.srcAddr := rfl
@[simp] theorem Engine.writePayload_srcLen (e : Engine) (p : Payload) : (e.writePayload p).srcLen = e.srcLen := rfl
@[simp] theorem Engine.writePayload_dstAddr (e : Engine) (p : Payload) : (e.writePayload p).dstAddr = e.dstAddr := rfl
@[simp] theorem Engine.writePayload_dstCap (e : Engine) (p : Payload) : (e.writePayload p).dstCap = e.dstCap := rfl
@[simp] theorem Engine.writePayload_crcResult (e : Engine) (p : Payload) : (e.writePayload p).crcResult = e.crcResult := rfl
@[simp] theorem Engine.writePayload_bytesWritten (e : Engine) (p : Payload) : (e.writePayload p).bytesWritten = e.bytesWritten := rfl
@[simp] theorem Engine.writePayload_fCategory (e : Engine) (p : Payload) : (e.writePayload p).fCategory = e.fCategory := rfl
@[simp] theorem Engine.writePayload_fFlags (e : Engine) (p : Payload) : (e.writePayload p).fFlags = e.fFlags := rfl
@[simp] theorem Engine.writePayload_fSequence (e : Engine) (p : Payload) : (e.writePayload p).fSequence = e.fSequence := rfl
@[simp] theorem Engine.writePayload_fLength (e : Engine) (p : Payload) : (e.writePayload p).fLength = e.fLength := rfl
@[simp] theorem Engine.writePayload_fKind (e : Engine) (p : Payload) : (e.writePayload p).fKind = p.kind := rfl
@[simp] theorem Engine.writePayload_fCrc (e : Engine) (p : Payload) : (e.writePayload p).fCrc = e.fCrc := rfl
@[simp] theorem Engine.writePayload_fRoll (e : Engine) (p : Payload) : (e.writePayload p).fRoll = p.roll := rfl
@[simp] theorem Engine.writePayload_fPitch (e : Engine) (p : Payload) : (e.writePayload p).fPitch = p.pitch := rfl
@[simp] theorem Engine.writePayload_fYaw (e : Engine) (p : Payload) : (e.writePayload p).fYaw = p.yaw := rfl
@[simp] theorem Engine.writePayload_fVoltageMv (e : Engine) (p : Payload) : (e.writePayload p).fVoltageMv = p.voltageMv := rfl
@[simp] theorem Engine.writePayload_fCurrentMa (e : Engine) (p : Payload) : (e.writePayload p).fCurrentMa = p.currentMa := rfl
@[simp] theorem Engine.writePayload_fPercent (e : Engine) (p : Payload) : (e.writePayload p).fPercent = p.percent := rfl
@[simp] theorem Engine.writePayload_fRaw (e : Engine) (p : Payload) : (e.writePayload p).fRaw = p.raw := rfl

/-! ### `State.finish` -/

@[simp] theorem State.finish_cfg (s : State) (code : ResultCode) : (s.finish code).cfg = s.cfg := rfl
@[simp] theorem State.finish_eng (s : State) (code : ResultCode) : (s.finish code).eng = s.eng.finish code := rfl
@[simp] theorem State.finish_others (s : State) (code : ResultCode) : (s.finish code).others = s.others := rfl
@[simp] theorem State.finish_mem (s : State) (code : ResultCode) : (s.finish code).mem = s.mem := rfl
@[simp] theorem State.finish_hostFault (s : State) (code : ResultCode) : (s.finish code).hostFault = s.hostFault := rfl
@[simp] theorem State.finish_hostQueue (s : State) (code : ResultCode) : (s.finish code).hostQueue = s.hostQueue := rfl
@[simp] theorem State.finish_turns (s : State) (code : ResultCode) : (s.finish code).turns = s.turns := rfl
@[simp] theorem State.finish_rdata (s : State) (code : ResultCode) : (s.finish code).rdata = s.rdata := rfl
@[simp] theorem State.finish_hostByte (s : State) (code : ResultCode) : (s.finish code).hostByte = s.hostByte := rfl
@[simp] theorem State.finish_draws (s : State) (code : ResultCode) : (s.finish code).draws = s.draws := rfl

/-! ### `State.recordFault` -/

@[simp] theorem State.recordFault_cfg (s : State) (r : HostFaultReason) : (s.recordFault r).cfg = s.cfg := rfl
@[simp] theorem State.recordFault_eng (s : State) (r : HostFaultReason) : (s.recordFault r).eng = s.eng := rfl
@[simp] theorem State.recordFault_others (s : State) (r : HostFaultReason) : (s.recordFault r).others = s.others := rfl
@[simp] theorem State.recordFault_mem (s : State) (r : HostFaultReason) : (s.recordFault r).mem = s.mem := rfl
@[simp] theorem State.recordFault_hostFault (s : State) (r : HostFaultReason) : (s.recordFault r).hostFault = some r := rfl
@[simp] theorem State.recordFault_hostQueue (s : State) (r : HostFaultReason) : (s.recordFault r).hostQueue = s.hostQueue := rfl
@[simp] theorem State.recordFault_turns (s : State) (r : HostFaultReason) : (s.recordFault r).turns = s.turns := rfl
@[simp] theorem State.recordFault_rdata (s : State) (r : HostFaultReason) : (s.recordFault r).rdata = s.rdata := rfl
@[simp] theorem State.recordFault_hostByte (s : State) (r : HostFaultReason) : (s.recordFault r).hostByte = s.hostByte := rfl
@[simp] theorem State.recordFault_draws (s : State) (r : HostFaultReason) : (s.recordFault r).draws = s.draws := rfl

/-! ### `State.resetEngine` -/

@[simp] theorem State.resetEngine_cfg (s : State) : (s.resetEngine).cfg = s.cfg := rfl
@[simp] theorem State.resetEngine_eng (s : State) : (s.resetEngine).eng = Engine.reset s.cfg := rfl
@[simp] theorem State.resetEngine_others (s : State) : (s.resetEngine).others = s.others := rfl
@[simp] theorem State.resetEngine_mem (s : State) : (s.resetEngine).mem = s.mem := rfl
@[simp] theorem State.resetEngine_hostFault (s : State) : (s.resetEngine).hostFault = s.hostFault := rfl
@[simp] theorem State.resetEngine_hostQueue (s : State) : (s.resetEngine).hostQueue = s.hostQueue := rfl
@[simp] theorem State.resetEngine_turns (s : State) : (s.resetEngine).turns = s.turns := rfl
@[simp] theorem State.resetEngine_rdata (s : State) : (s.resetEngine).rdata = s.rdata := rfl
@[simp] theorem State.resetEngine_hostByte (s : State) : (s.resetEngine).hostByte = s.hostByte := rfl
@[simp] theorem State.resetEngine_draws (s : State) : (s.resetEngine).draws = s.draws := rfl

/-! ### `State.returnData` -/

@[simp] theorem State.returnData_cfg (s : State) (v : Word) : (s.returnData v).cfg = s.cfg := rfl
@[simp] theorem State.returnData_eng (s : State) (v : Word) : (s.returnData v).eng = s.eng := rfl
@[simp] theorem State.returnData_others (s : State) (v : Word) : (s.returnData v).others = s.others := rfl
@[simp] theorem State.returnData_mem (s : State) (v : Word) : (s.returnData v).mem = s.mem := rfl
@[simp] theorem State.returnData_hostFault (s : State) (v : Word) : (s.returnData v).hostFault = s.hostFault := rfl
@[simp] theorem State.returnData_hostQueue (s : State) (v : Word) : (s.returnData v).hostQueue = s.hostQueue := rfl
@[simp] theorem State.returnData_turns (s : State) (v : Word) : (s.returnData v).turns = s.turns := rfl
@[simp] theorem State.returnData_rdata (s : State) (v : Word) : (s.returnData v).rdata = v := rfl
@[simp] theorem State.returnData_hostByte (s : State) (v : Word) : (s.returnData v).hostByte = s.hostByte := rfl
@[simp] theorem State.returnData_draws (s : State) (v : Word) : (s.returnData v).draws = s.draws := rfl

/-! ### `State.returnFree` -/

@[simp] theorem State.returnFree_cfg (s : State) : (s.returnFree).cfg = s.cfg := rfl
@[simp] theorem State.returnFree_eng (s : State) : (s.returnFree).eng = s.eng := rfl
@[simp] theorem State.returnFree_others (s : State) : (s.returnFree).others = s.others := rfl
@[simp] theorem State.returnFree_mem (s : State) : (s.returnFree).mem = s.mem := rfl
@[simp] theorem State.returnFree_hostFault (s : State) : (s.returnFree).hostFault = s.hostFault := rfl
@[simp] theorem State.returnFree_hostQueue (s : State) : (s.returnFree).hostQueue = s.hostQueue := rfl
@[simp] theorem State.returnFree_turns (s : State) : (s.returnFree).turns = s.turns := rfl
@[simp] theorem State.returnFree_rdata (s : State) : (s.returnFree).rdata = Config.busyRead s.draws := rfl
@[simp] theorem State.returnFree_hostByte (s : State) : (s.returnFree).hostByte = s.hostByte := rfl
@[simp] theorem State.returnFree_draws (s : State) : (s.returnFree).draws = s.draws + 1 := rfl

/-! ### `State.complete`: a command that raised a code changes STATUS only (R112) -/

@[simp] theorem State.complete_ok (s t : State) : s.complete (.ok t) = t.finish .ok := rfl
@[simp] theorem State.complete_error (s : State) (code : ResultCode) : s.complete (.error code) = s.finish code := rfl
theorem State.finish_eq_onlyStatus (s : State) (code : ResultCode) : s.finish code = s.onlyStatus code.bits := rfl

/-! ### `State.swap` -/

@[simp] theorem State.swap_zero (s : State) : s.swap 0 = s := rfl

theorem State.swap_succ {s : State} {k : Nat} {e : Engine} (h : s.others[k]? = some e) :
    s.swap (k + 1) = { s with eng := e, others := s.others.set k s.eng } := by
  simp [State.swap, h]

theorem State.swap_absent {s : State} {k : Nat} (h : s.others[k]? = none) : s.swap (k + 1) = s := by
  simp [State.swap, h]

/-- Everything but `eng` and `others` is the same after a swap. -/
theorem State.swap_rest (s : State) (k : Nat) :
    ∃ e l, s.swap k = { s with eng := e, others := l } ∧ l.length = s.others.length := by
  cases k with
  | zero => exact ⟨s.eng, s.others, rfl, rfl⟩
  | succ k =>
    cases h : s.others[k]? with
    | none => exact ⟨s.eng, s.others, State.swap_absent h, rfl⟩
    | some e => exact ⟨e, s.others.set k s.eng, State.swap_succ h, by simp⟩

@[simp] theorem State.swap_cfg (s : State) (k : Nat) : (s.swap k).cfg = s.cfg := by
  obtain ⟨e, l, h, -⟩ := s.swap_rest k
  rw [h]

@[simp] theorem State.swap_mem (s : State) (k : Nat) : (s.swap k).mem = s.mem := by
  obtain ⟨e, l, h, -⟩ := s.swap_rest k
  rw [h]

@[simp] theorem State.swap_hostFault (s : State) (k : Nat) : (s.swap k).hostFault = s.hostFault := by
  obtain ⟨e, l, h, -⟩ := s.swap_rest k
  rw [h]

@[simp] theorem State.swap_hostQueue (s : State) (k : Nat) : (s.swap k).hostQueue = s.hostQueue := by
  obtain ⟨e, l, h, -⟩ := s.swap_rest k
  rw [h]

@[simp] theorem State.swap_turns (s : State) (k : Nat) : (s.swap k).turns = s.turns := by
  obtain ⟨e, l, h, -⟩ := s.swap_rest k
  rw [h]

@[simp] theorem State.swap_rdata (s : State) (k : Nat) : (s.swap k).rdata = s.rdata := by
  obtain ⟨e, l, h, -⟩ := s.swap_rest k
  rw [h]

@[simp] theorem State.swap_hostByte (s : State) (k : Nat) : (s.swap k).hostByte = s.hostByte := by
  obtain ⟨e, l, h, -⟩ := s.swap_rest k
  rw [h]

@[simp] theorem State.swap_draws (s : State) (k : Nat) : (s.swap k).draws = s.draws := by
  obtain ⟨e, l, h, -⟩ := s.swap_rest k
  rw [h]

@[simp] theorem State.swap_others_length (s : State) (k : Nat) : (s.swap k).others.length = s.others.length := by
  obtain ⟨e, l, h, hl⟩ := s.swap_rest k
  rw [h, hl]

@[simp] theorem State.swap_engines_length (s : State) (k : Nat) : (s.swap k).engines.length = s.engines.length := by
  simp [State.engines]

/-- The engine in focus after a swap is engine `k`. -/
theorem State.swap_eng {s : State} {k : Nat} {e : Engine} (h : s.engines[k]? = some e) : (s.swap k).eng = e := by
  cases k with
  | zero => simpa [State.engines] using h
  | succ k => simp [State.swap_succ (show s.others[k]? = some e by simpa [State.engines] using h)]

/-- A swap permutes the engines. -/
theorem State.swap_engines_perm (s : State) (k : Nat) : (s.swap k).engines.Perm s.engines := by
  cases k with
  | zero => exact List.Perm.refl _
  | succ k =>
    cases h : s.others[k]? with
    | none => rw [State.swap_absent h]
    | some e =>
      rw [State.swap_succ h]
      obtain ⟨hk, he⟩ := List.getElem?_eq_some_iff.mp h
      simp only [State.engines]
      have hset : s.others.set k s.eng = s.others.take k ++ s.eng :: s.others.drop (k + 1) := List.set_eq_take_append_cons_drop ▸ by simp [hk]
      have hid : s.others = s.others.take k ++ e :: s.others.drop (k + 1) := by
        rw [← he, List.getElem_cons_drop, List.take_append_drop]
      rw [hset]
      conv_rhs => rw [hid]
      exact (List.perm_middle.cons e).trans ((List.Perm.swap _ _ _).trans (List.perm_middle.symm.cons s.eng))

/-- Swapping twice with the same engine is the identity. -/
theorem State.swap_swap (s : State) (k : Nat) : (s.swap k).swap k = s := by
  cases k with
  | zero => rfl
  | succ k =>
    cases h : s.others[k]? with
    | none => rw [State.swap_absent h, State.swap_absent h]
    | some e =>
      obtain ⟨hk, he⟩ := List.getElem?_eq_some_iff.mp h
      have h2 : ({ s with eng := e, others := s.others.set k s.eng } : State).others[k]? = some s.eng := by simp [hk]
      rw [State.swap_succ h, State.swap_succ h2]
      have : s.others.set k e = s.others := by rw [← he]; exact List.set_getElem_self hk
      simp [this]

/-- A swap reads and moves engines only, so it commutes with a change of the mark, the queue and the data read. -/
theorem State.swap_with (s : State) (k : Nat) (f : Option HostFaultReason) (q : List HostAction) (d : Word) (n : Nat) :
    State.swap { s with hostFault := f, hostQueue := q, rdata := d, draws := n } k =
      { s.swap k with hostFault := f, hostQueue := q, rdata := d, draws := n } := by
  cases k with
  | zero => rfl
  | succ k =>
    simp only [State.swap]
    cases s.others[k]? <;> rfl

/-- A step at engine `k` that changes no engine and not memory shows no trace of the swap. -/
theorem State.swap_keep (s : State) (k : Nat) (f : Option HostFaultReason) (q : List HostAction) (d : Word) (n : Nat) :
    State.swap { s.swap k with hostFault := f, hostQueue := q, rdata := d, draws := n } k =
      { s with hostFault := f, hostQueue := q, rdata := d, draws := n } := by
  rw [State.swap_with, State.swap_swap]

end Sys2Proof.Machine
end

