-- ==== Sys2Proof/Laws/Memory.lean ====
section
/-! SUPPORT. The laws of buffer memory: read after write, the canonical form, and what runs of reads and writes do. -/

namespace Sys2Proof.Machine

/-! ### One byte -/

theorem Memory.wfAbove_mono {m : Memory} {lo lo' : Nat} (h : Memory.wfAbove lo m = true) (hl : lo' ≤ lo) :
    Memory.wfAbove lo' m = true := by
  cases m with
  | nil => rfl
  | cons p m =>
    simp only [Memory.wfAbove, Bool.and_eq_true, decide_eq_true_eq] at h ⊢
    exact ⟨⟨by omega, h.1.2⟩, h.2⟩

/-- Below the first cell every address reads as background. -/
theorem Memory.read_below {m : Memory} {lo a : Nat} (h : Memory.wfAbove lo m = true) (ha : a < lo) :
    m.read a = Memory.background := by
  induction m generalizing lo with
  | nil => rfl
  | cons p m ih =>
    simp only [Memory.wfAbove, Bool.and_eq_true, decide_eq_true_eq] at h
    simp only [Memory.read]
    rw [if_neg (by omega)]
    exact ih h.2 (by omega)

/-- R52: a read returns the last value written to its address, and a write leaves every other address alone. -/
theorem Memory.read_write {m : Memory} {lo : Nat} (h : Memory.wfAbove lo m = true) (a b : Nat) (v : Byte) :
    (m.write a v).read b = if b = a then v else m.read b := by
  induction m generalizing lo with
  | nil =>
    simp only [Memory.write, Memory.read]
    split
    · rename_i hv; split <;> simp [Memory.read, hv]
    · simp [Memory.read]
  | cons p m ih =>
    obtain ⟨c, w⟩ := p
    simp only [Memory.wfAbove, Bool.and_eq_true, decide_eq_true_eq] at h
    simp only [Memory.write]
    split
    · rename_i hac
      split
      · rename_i hv
        split
        · rename_i hb
          subst hb
          rw [hv]
          simp only [Memory.read]
          rw [if_neg (by omega)]
          exact Memory.read_below h.2 (by omega)
        · rfl
      · simp [Memory.read]
    · rename_i hac
      split
      · rename_i heq
        subst heq
        split
        · rename_i hv
          split
          · rename_i hb
            subst hb
            rw [hv]
            exact Memory.read_below h.2 (by omega)
          · rename_i hb; simp [Memory.read, hb]
        · simp only [Memory.read]; split <;> rfl
      · rename_i hne
        simp only [Memory.read]
        split
        · rename_i hb
          rw [if_neg (by omega)]
        · exact ih h.2

theorem Memory.write_wfAbove {m : Memory} {lo : Nat} (h : Memory.wfAbove lo m = true) (a : Nat) (v : Byte)
    (ha : lo ≤ a) : Memory.wfAbove lo (m.write a v) = true := by
  induction m generalizing lo with
  | nil =>
    simp only [Memory.write]
    split
    · rfl
    · rename_i hv; simp [Memory.wfAbove, ha, hv]
  | cons p m ih =>
    obtain ⟨c, w⟩ := p
    have h' := h
    simp only [Memory.wfAbove, Bool.and_eq_true, decide_eq_true_eq] at h
    simp only [Memory.write]
    split
    · rename_i hac
      split
      · exact h'
      · rename_i hv
        simp only [Memory.wfAbove, Bool.and_eq_true, decide_eq_true_eq]
        exact ⟨⟨ha, hv⟩, ⟨by omega, h.1.2⟩, h.2⟩
    · split
      · split
        · exact Memory.wfAbove_mono h.2 (by omega)
        · rename_i heq hv
          subst heq
          simp only [Memory.wfAbove, Bool.and_eq_true, decide_eq_true_eq]
          exact ⟨⟨ha, hv⟩, h.2⟩
      · simp only [Memory.wfAbove, Bool.and_eq_true, decide_eq_true_eq]
        exact ⟨h.1, ih h.2 (by omega)⟩

/-- A write keeps the canonical form. -/
theorem Memory.write_wf {m : Memory} (h : m.wf = true) (a : Nat) (v : Byte) : (m.write a v).wf = true :=
  Memory.write_wfAbove h a v (Nat.zero_le a)

@[simp] theorem Memory.read_write_same {m : Memory} (h : m.wf = true) (a : Nat) (v : Byte) :
    (m.write a v).read a = v := by
  simp [Memory.read_write h]

theorem Memory.read_write_other {m : Memory} (h : m.wf = true) {a b : Nat} (v : Byte) (hb : b ≠ a) :
    (m.write a v).read b = m.read b := by
  simp [Memory.read_write h, hb]

/-- A write adds no cell but at its own address. -/
theorem Memory.mem_write {m : Memory} {a : Nat} {v : Byte} {p : Host.Cell} (h : p ∈ m.write a v) : p ∈ m ∨ p.1 = a := by
  induction m with
  | nil =>
    simp only [Memory.write] at h
    split at h
    · simp at h
    · simp only [List.mem_singleton] at h; subst h; exact .inr rfl
  | cons q m ih =>
    obtain ⟨c, w⟩ := q
    simp only [Memory.write] at h
    split at h
    · split at h
      · exact .inl h
      · rcases List.mem_cons.mp h with rfl | h
        · exact .inr rfl
        · exact .inl h
    · split at h
      · split at h
        · exact .inl (List.mem_cons_of_mem _ h)
        · rcases List.mem_cons.mp h with rfl | h
          · exact .inr rfl
          · exact .inl (List.mem_cons_of_mem _ h)
      · rcases List.mem_cons.mp h with rfl | h
        · exact .inl (by simp)
        · rcases ih h with h | h
          · exact .inl (List.mem_cons_of_mem _ h)
          · exact .inr h

/-- Equal canonical memories are equal lists: the form is canonical. -/
theorem Memory.ext_wfAbove {m n : Memory} {lo : Nat} (hm : Memory.wfAbove lo m = true) (hn : Memory.wfAbove lo n = true)
    (h : ∀ a, m.read a = n.read a) : m = n := by
  induction m generalizing n lo with
  | nil =>
    cases n with
    | nil => rfl
    | cons q n =>
      obtain ⟨c, w⟩ := q
      simp only [Memory.wfAbove, Bool.and_eq_true, decide_eq_true_eq] at hn
      have hc := h c
      simp only [Memory.read, if_true] at hc
      exact absurd hc.symm hn.1.2
  | cons p m ih =>
    obtain ⟨b, v⟩ := p
    simp only [Memory.wfAbove, Bool.and_eq_true, decide_eq_true_eq] at hm
    cases n with
    | nil =>
      have hb := h b
      simp only [Memory.read, if_true] at hb
      exact absurd hb hm.1.2
    | cons q n =>
      obtain ⟨c, w⟩ := q
      simp only [Memory.wfAbove, Bool.and_eq_true, decide_eq_true_eq] at hn
      have hbc : b = c := by
        rcases Nat.lt_trichotomy b c with hlt | heq | hgt
        · have hb := h b
          simp only [Memory.read, if_true, if_neg (Nat.ne_of_lt hlt)] at hb
          rw [Memory.read_below hn.2 (by omega)] at hb
          exact absurd hb hm.1.2
        · exact heq
        · have hc := h c
          simp only [Memory.read, if_true, if_neg (Nat.ne_of_lt hgt)] at hc
          rw [Memory.read_below hm.2 (by omega)] at hc
          exact absurd hc.symm hn.1.2
      subst hbc
      have hv : v = w := by simpa [Memory.read] using h b
      subst hv
      congr 1
      refine ih hm.2 hn.2 fun a => ?_
      by_cases hab : a = b
      · subst hab
        rw [Memory.read_below hm.2 (by omega), Memory.read_below hn.2 (by omega)]
      · simpa [Memory.read, hab] using h a

/-! ### Runs of bytes -/

theorem Memory.writeBytes_wf {m : Memory} (h : m.wf = true) (a : Nat) (bs : List Byte) : (m.writeBytes a bs).wf = true := by
  induction bs generalizing m a with
  | nil => exact h
  | cons b bs ih => exact ih (Memory.write_wf h a b) (a + 1)

/-- R41: byte `i` of the list lands at address `a + i`, and every other address keeps its byte. -/
theorem Memory.read_writeBytes {m : Memory} (h : m.wf = true) (a : Nat) (bs : List Byte) (x : Nat) :
    (m.writeBytes a bs).read x = if a ≤ x ∧ x < a + bs.length then byteAt bs (x - a) else m.read x := by
  induction bs generalizing m a with
  | nil => rw [if_neg (by simp)]; rfl
  | cons b bs ih =>
    simp only [Memory.writeBytes, List.length_cons]
    rw [ih (Memory.write_wf h a b) (a + 1)]
    by_cases hx : a = x
    · subst hx
      rw [if_neg (by omega), if_pos (by omega), Memory.read_write_same h]
      simp [byteAt]
    · rw [Memory.read_write_other h b (Ne.symm hx)]
      by_cases h2 : a + 1 ≤ x ∧ x < a + 1 + bs.length
      · rw [if_pos h2, if_pos (by omega)]
        obtain ⟨j, rfl⟩ : ∃ j, x = a + 1 + j := ⟨x - (a + 1), by omega⟩
        simp [byteAt, show a + 1 + j - a = j + 1 by omega]
      · rw [if_neg h2, if_neg (by omega)]

theorem Memory.mem_writeBytes {m : Memory} {a : Nat} {bs : List Byte} {p : Host.Cell} (h : p ∈ m.writeBytes a bs) :
    p ∈ m ∨ (a ≤ p.1 ∧ p.1 < a + bs.length) := by
  induction bs generalizing m a with
  | nil => exact .inl h
  | cons b bs ih =>
    rcases ih h with h | h
    · rcases Memory.mem_write h with h | h
      · exact .inl h
      · exact .inr ⟨by omega, by simp only [List.length_cons]; omega⟩
    · exact .inr ⟨by omega, by simp only [List.length_cons]; omega⟩

/-! ### Reachable addresses -/

theorem admits_lt {c : Config} {a : Nat} (h : admits c a = true) : a < 2 ^ 32 := by
  simp only [admits, Bool.and_eq_true, decide_eq_true_eq] at h
  exact h.1

theorem admitsAll_iff {c : Config} {a n : Nat} : admitsAll c a n = true ↔ ∀ i < n, admits c (a + i) = true := by
  induction n generalizing a with
  | zero => simp [admitsAll]
  | succ n ih =>
    simp only [admitsAll, Bool.and_eq_true, ih]
    constructor
    · rintro ⟨h0, h⟩ i hi
      cases i with
      | zero => exact h0
      | succ i => have := h i (by omega); rwa [show a + 1 + i = a + (i + 1) by omega] at this
    · intro h
      refine ⟨h 0 (by omega), fun i hi => ?_⟩
      have := h (i + 1) (by omega)
      rwa [show a + (i + 1) = a + 1 + i by omega] at this

/-- R40: when every address exists, MemRead returns the bytes in increasing address order. -/
theorem memRead?_of_reachable {c : Config} {m : Memory} {a n : Nat} (h : ∀ i < n, admits c (a + i) = true) :
    memRead? c m a n = some ((List.range n).map fun i => m.read (a + i)) := by
  induction n generalizing a with
  | zero => rfl
  | succ n ih =>
    have h0 : admits c a = true := h 0 (by omega)
    have h1 : ∀ i < n, admits c (a + 1 + i) = true := fun i hi => by
      have := h (i + 1) (by omega); rwa [show a + (i + 1) = a + 1 + i by omega] at this
    simp only [memRead?, h0, if_true, ih h1, List.range_succ_eq_map, List.map_cons, List.map_map]
    congr 2
    apply List.map_congr_left
    intro i _
    simp [Nat.add_comm, Nat.add_left_comm]

/-- R40: MemRead is a bus error exactly when some address does not exist. -/
theorem memRead?_of_unreachable {c : Config} {m : Memory} {a n i : Nat} (hi : i < n) (h : admits c (a + i) = false) :
    memRead? c m a n = none := by
  induction n generalizing a i with
  | zero => omega
  | succ n ih =>
    simp only [memRead?]
    split
    · cases i with
      | zero => rename_i h0; rw [Nat.add_zero] at h; rw [h] at h0; exact absurd h0 (by simp)
      | succ i => rw [ih (a := a + 1) (i := i) (by omega) (by rwa [show a + 1 + i = a + (i + 1) by omega])]
    · rfl

theorem memRead?_cases (c : Config) (m : Memory) (a n : Nat) :
    ((∀ i < n, admits c (a + i) = true) ∧ memRead? c m a n = some ((List.range n).map fun i => m.read (a + i))) ∨
    ((∃ i < n, admits c (a + i) = false) ∧ memRead? c m a n = none) := by
  by_cases h : ∀ i < n, admits c (a + i) = true
  · exact .inl ⟨h, memRead?_of_reachable h⟩
  · push Not at h
    obtain ⟨i, hi, hf⟩ := h
    exact .inr ⟨⟨i, hi, by simpa using hf⟩, memRead?_of_unreachable hi (by simpa using hf)⟩

/-! ### Lists of bytes -/

@[simp] theorem byteAt_map_range (f : Nat → Byte) (n i : Nat) :
    byteAt ((List.range n).map f) i = if i < n then f i else 0#8 := by
  unfold byteAt
  by_cases h : i < n <;> simp [h]

theorem padTo_eq (n : Nat) (p : List Byte) : padTo n p = (List.range n).map fun i => byteAt p i := by
  induction n generalizing p with
  | zero => rfl
  | succ n ih =>
    cases p with
    | nil => simp [padTo, ih, List.range_succ_eq_map, byteAt, Function.comp_def]
    | cons b p => simp [padTo, ih, List.range_succ_eq_map, byteAt]

@[simp] theorem padTo_length (n : Nat) (p : List Byte) : (padTo n p).length = n := by simp [padTo_eq]

theorem overlay_length {xs v : List Byte} (h : xs.length ≤ v.length) : (overlay xs v).length = v.length := by
  simp [overlay]; omega

theorem byteAt_overlay (xs v : List Byte) (i : Nat) :
    byteAt (overlay xs v) i = if i < xs.length then byteAt xs i else byteAt v i := by
  unfold overlay byteAt
  split
  · rename_i h; simp [List.getElem?_append_left h]
  · rename_i h
    rw [List.getD_eq_getElem?_getD, List.getD_eq_getElem?_getD, List.getElem?_append_right (by omega), List.getElem?_drop]
    congr 2
    omega

/-! ### Byte order (R44) -/

theorem le16_enc16 (v : Half) : le16 (v.extractLsb' 0 8) (v.extractLsb' 8 8) = v := by
  apply BitVec.eq_of_getLsbD_eq
  intro i hi
  simp only [le16, BitVec.getLsbD_or, BitVec.getLsbD_setWidth, BitVec.getLsbD_shiftLeft, BitVec.getLsbD_extractLsb']
  by_cases h : i < 8
  · simp [h, show i < 16 by omega]
  · simp [h, show i < 16 by omega, show i - 8 < 8 by omega, show i - 8 < 16 by omega, show 8 + (i - 8) = i by omega]

theorem le32_enc32 (v : Word) :
    le32 (v.extractLsb' 0 8) (v.extractLsb' 8 8) (v.extractLsb' 16 8) (v.extractLsb' 24 8) = v := by
  apply BitVec.eq_of_getLsbD_eq
  intro i hi
  simp only [le32, BitVec.getLsbD_or, BitVec.getLsbD_setWidth, BitVec.getLsbD_shiftLeft, BitVec.getLsbD_extractLsb']
  by_cases h : i < 8
  · simp [h, show i < 32 by omega, show i < 16 by omega, show i < 24 by omega]
  by_cases h2 : i < 16
  · simp [h, h2, show i < 32 by omega, show i < 24 by omega, show i - 8 < 8 by omega, show i - 8 < 32 by omega,
      show 8 + (i - 8) = i by omega]
  by_cases h3 : i < 24
  · simp [h, h2, h3, show i < 32 by omega, show ¬ i - 8 < 8 by omega, show i - 16 < 8 by omega,
      show i - 16 < 32 by omega, show 16 + (i - 16) = i by omega]
  · simp [h, h2, h3, show i < 32 by omega, show ¬ i - 8 < 8 by omega, show ¬ i - 16 < 8 by omega,
      show i - 24 < 8 by omega, show i - 24 < 32 by omega, show 24 + (i - 24) = i by omega]

theorem le16_injective {a b c d : Byte} (h : le16 a b = le16 c d) : a = c ∧ b = d := by
  constructor
  · apply BitVec.eq_of_getLsbD_eq
    intro i hi
    have := congrArg (fun v : Half => v.getLsbD i) h
    simpa [le16, hi, show i < 16 by omega] using this
  · apply BitVec.eq_of_getLsbD_eq
    intro i hi
    have := congrArg (fun v : Half => v.getLsbD (i + 8)) h
    simpa [le16, hi, show i + 8 < 16 by omega] using this

/-- R47: byte `j` of a window word, in bits [8j+7:8j]. -/
theorem le32_extract (b0 b1 b2 b3 : Byte) :
    (le32 b0 b1 b2 b3).extractLsb' 0 8 = b0 ∧ (le32 b0 b1 b2 b3).extractLsb' 8 8 = b1 ∧
    (le32 b0 b1 b2 b3).extractLsb' 16 8 = b2 ∧ (le32 b0 b1 b2 b3).extractLsb' 24 8 = b3 := by
  have hz : ∀ (b : Byte) (k : Nat), 8 ≤ k → b.getLsbD k = false := fun b k h => BitVec.getLsbD_of_ge b k h
  refine ⟨?_, ?_, ?_, ?_⟩ <;> apply BitVec.eq_of_getLsbD_eq <;> intro i hi <;>
    simp only [le32, BitVec.getLsbD_extractLsb', BitVec.getLsbD_or, BitVec.getLsbD_shiftLeft, BitVec.getLsbD_setWidth]
  · simp [hi, show i < 32 by omega, show i < 16 by omega, show i < 24 by omega]
  · simp [hi, show i < 32 by omega, show 8 + i < 32 by omega, show 8 + i < 16 by omega, show 8 + i < 24 by omega]
  · simp [hi, show i < 32 by omega, show 16 + i < 32 by omega, show 16 + i < 24 by omega, hz b0 (16 + i) (by omega),
      hz b1 (16 + i - 8) (by omega)]
  · simp [hi, show i < 32 by omega, show 24 + i < 32 by omega, hz b0 (24 + i) (by omega),
      hz b1 (24 + i - 8) (by omega), hz b2 (24 + i - 16) (by omega)]

end Sys2Proof.Machine
end

