-- ==== Sys2Proof/Laws/Commands.lean ====
section
/-! SUPPORT. What each command's pseudocode can do, said once: its result in every case, in the terms of Safety.lean. -/

namespace Sys2Proof.Machine

/-! ### CRC16 -/

theorem runCrc16_empty {s : State} (h : s.eng.srcLen = 0#32) :
    runCrc16 s = .ok { s with eng := { s.eng with crcResult := 0xFFFF#16 } } := by
  simp [runCrc16, h]

theorem runCrc16_null {s : State} (hn : s.eng.srcLen ≠ 0#32) (h : s.eng.srcAddr = 0#32) :
    runCrc16 s = .error .invalidArgument := by
  simp [runCrc16, hn, h]

theorem runCrc16_unreachable {s : State} (hn : s.eng.srcLen ≠ 0#32) (ha : s.eng.srcAddr ≠ 0#32)
    {i : Nat} (hi : i < s.eng.srcLen.toNat) (h : ¬ s.srcReachable i) : runCrc16 s = .error .busError := by
  simp only [State.srcReachable, Bool.not_eq_true] at h
  simp [runCrc16, hn, ha, memRead?_of_unreachable hi h]

theorem runCrc16_ok {s : State} (hn : s.eng.srcLen ≠ 0#32) (ha : s.eng.srcAddr ≠ 0#32)
    (h : ∀ i < s.eng.srcLen.toNat, s.srcReachable i) :
    runCrc16 s = .ok { s with eng := { s.eng with
      crcResult := crc16 ((List.range s.eng.srcLen.toNat).map s.srcByte) } } := by
  simp only [runCrc16, hn, ha, if_false, memRead?_of_reachable (m := s.mem) h]
  rfl

/-! ### Dispatch and FILL -/

/-- R86 to R90: writing the dispatched payload is `Engine.withPayload`, whatever `cat` and `p`. -/
theorem writePayload_dispatch (c : Config) (e : Engine) (cat : Byte) (p : List Byte) :
    e.writePayload (dispatchPayload c cat p) = e.withPayload c cat p.length (byteAt p) := by
  have hraw : padTo c.maxPayload.size p
      = (List.range c.maxPayload.size).map fun i => if i < p.length then byteAt p i else 0#8 := by
    rw [padTo_eq]
    apply List.map_congr_left
    intro i _
    split
    · rfl
    · rename_i h; simp [byteAt, List.getD_eq_getElem?_getD, List.getElem?_eq_none (Nat.le_of_not_lt h)]
  unfold dispatchPayload Engine.withPayload
  cases hk : classify c cat p.length <;>
    simp [Engine.writePayload, rawPayload, decodeTelemetry, decodeBattery, hraw]

theorem withPayload_congr {c : Config} {e : Engine} {cat : Byte} {n : Nat} {p q : Nat → Byte}
    (h : ∀ i < n, p i = q i) : e.withPayload c cat n p = e.withPayload c cat n q := by
  have hraw : ((List.range c.maxPayload.size).map fun i => if i < n then p i else 0#8)
      = (List.range c.maxPayload.size).map fun i => if i < n then q i else 0#8 := by
    apply List.map_congr_left
    intro i _
    split
    · exact h i ‹_›
    · rfl
  unfold Engine.withPayload
  rw [hraw]
  by_cases ht : classify c cat n = .telemetry
  · have hn : 12 ≤ n := by
      unfold classify at ht
      split at ht
      · rename_i hc; exact hc.2
      · split at ht <;> exact absurd ht (by decide)
    simp [ht, h 0 (by omega), h 1 (by omega), h 2 (by omega), h 3 (by omega), h 4 (by omega), h 5 (by omega),
      h 6 (by omega), h 7 (by omega), h 8 (by omega), h 9 (by omega), h 10 (by omega), h 11 (by omega)]
  · by_cases hb : classify c cat n = .battery
    · have hn : 5 ≤ n := by
        unfold classify at hb
        split at hb
        · exact absurd hb (by decide)
        · split at hb
          · rename_i hc; exact hc.2
          · exact absurd hb (by decide)
      simp [hb, h 0 (by omega), h 1 (by omega), h 2 (by omega), h 3 (by omega), h 4 (by omega)]
    · simp [ht, hb]

theorem runFill_tooLong {s : State} (h : s.cfg.maxPayload.size < s.eng.fLength.toNat) :
    runFill s = .error .invalidState := by
  simp [runFill, h]

theorem runFill_null {s : State} (hl : s.eng.fLength.toNat ≤ s.cfg.maxPayload.size) (hn : 0 < s.eng.fLength.toNat)
    (h : s.eng.srcAddr = 0#32) : runFill s = .error .invalidArgument := by
  unfold runFill
  rw [if_neg (by omega), if_pos ⟨hn, h⟩]

theorem runFill_unreachable {s : State} (hl : s.eng.fLength.toNat ≤ s.cfg.maxPayload.size)
    (ha : s.eng.srcAddr ≠ 0#32) {i : Nat} (hi : i < s.eng.fLength.toNat) (h : ¬ s.srcReachable i) :
    runFill s = .error .busError := by
  simp only [State.srcReachable, Bool.not_eq_true] at h
  unfold runFill
  rw [if_neg (by omega), if_neg (fun hc => ha hc.2), memRead?_of_unreachable hi h]

theorem runFill_ok {s : State} (hl : s.eng.fLength.toNat ≤ s.cfg.maxPayload.size)
    (ha : 0 < s.eng.fLength.toNat → s.eng.srcAddr ≠ 0#32) (h : ∀ i < s.eng.fLength.toNat, s.srcReachable i) :
    runFill s = .ok { s with eng := s.eng.withPayload s.cfg s.eng.fCategory s.eng.fLength.toNat s.srcByte } := by
  unfold runFill
  rw [if_neg (by omega), if_neg (fun hc => ha hc.1 hc.2), memRead?_of_reachable (m := s.mem) h]
  simp only [writePayload_dispatch, List.length_map, List.length_range]
  congr 2
  exact withPayload_congr fun i hi => by simp [hi, State.srcByte]

/-! ### PARSE -/

theorem offLength_lt_minFrameSize (c : Config) : offLength c < minFrameSize c := by
  unfold offLength minFrameSize headerSize; cases c.hdrProfile <;> decide

theorem offLength_lt_headerSize (c : Config) : offLength c < headerSize c := by
  unfold offLength headerSize; cases c.hdrProfile <;> decide

theorem headerSize_pos (c : Config) : 3 ≤ headerSize c := by
  unfold headerSize; cases c.hdrProfile <;> decide

theorem runParse_null {s : State} (h : s.eng.srcAddr = 0#32) : runParse s = .error .invalidArgument := by
  simp [runParse, h]

theorem runParse_short {s : State} (ha : s.eng.srcAddr ≠ 0#32) (h : s.eng.srcLen.toNat < minFrameSize s.cfg) :
    runParse s = .error .invalidSize := by
  simp [runParse, ha, h]

theorem runParse_lengthUnreachable {s : State} (ha : s.eng.srcAddr ≠ 0#32)
    (hs : minFrameSize s.cfg ≤ s.eng.srcLen.toNat) (h : ¬ s.srcReachable (offLength s.cfg)) :
    runParse s = .error .busError := by
  simp only [State.srcReachable, Bool.not_eq_true] at h
  simp [runParse, ha, Nat.not_lt.mpr hs, h]

/-- PARSE's steps 1 and 2 leave steps 3 to 5 (`parseBody`), or end with InvalidSize. -/
theorem runParse_length {s : State} (ha : s.eng.srcAddr ≠ 0#32) (hs : minFrameSize s.cfg ≤ s.eng.srcLen.toNat)
    (hr : s.srcReachable (offLength s.cfg)) :
    runParse s = if s.srcLength.toNat > s.cfg.maxPayload.size then .error .invalidSize else parseBody s s.srcLength := by
  simp only [State.srcReachable] at hr
  simp only [runParse, ha, if_false, Nat.not_lt.mpr hs, hr, if_true]
  rfl

theorem runParse_lengthTooLarge {s : State} (ha : s.eng.srcAddr ≠ 0#32) (hs : minFrameSize s.cfg ≤ s.eng.srcLen.toNat)
    (hr : s.srcReachable (offLength s.cfg)) (h : s.cfg.maxPayload.size < s.srcLength.toNat) :
    runParse s = .error .invalidSize := by
  rw [runParse_length ha hs hr, if_pos h]

theorem runParse_truncated {s : State} (ha : s.eng.srcAddr ≠ 0#32) (hs : minFrameSize s.cfg ≤ s.eng.srcLen.toNat)
    (hr : s.srcReachable (offLength s.cfg)) (h : s.eng.srcLen.toNat < frameSize s.cfg s.srcLength.toNat) :
    runParse s = .error .invalidSize := by
  rw [runParse_length ha hs hr]
  split
  · rfl
  · simp [parseBody, h]

theorem State.SourceFits.runParse_eq {s : State} (h : s.SourceFits) : runParse s = parseBody s s.srcLength := by
  rw [runParse_length h.notNull h.notShort h.lengthReachable, if_neg (Nat.not_lt.mpr h.lengthFits)]

theorem State.SourceFits.runParse_unreachable {s : State} (h : s.SourceFits) {i : Nat}
    (hi : i < frameSize s.cfg s.srcLength.toNat) (hr : ¬ s.srcReachable i) : runParse s = .error .busError := by
  simp only [State.srcReachable, Bool.not_eq_true] at hr
  rw [h.runParse_eq, parseBody, if_neg (Nat.not_lt.mpr h.frameFits), memRead?_of_unreachable hi hr]

/-- The bytes MemRead returns for a frame, and the checksums taken from them, are those of the buffer at SRC_ADDR. -/
theorem frame_checksums (s : State) (len : Nat) :
    frameComputedCrc s.cfg ((List.range (frameSize s.cfg len)).map s.srcByte) len = s.srcComputedCrc len ∧
    frameReceivedCrc s.cfg ((List.range (frameSize s.cfg len)).map s.srcByte) len = s.srcReceivedCrc len := by
  have hmin : min (headerSize s.cfg + len) (frameSize s.cfg len) = headerSize s.cfg + len := by
    unfold frameSize; omega
  constructor
  · rw [frameComputedCrc, State.srcComputedCrc, ← List.map_take, List.take_range, hmin]
  · unfold frameReceivedCrc State.srcReceivedCrc
    rw [byteAt_map_range, byteAt_map_range, if_pos (by unfold frameSize; omega), if_pos (by unfold frameSize; omega)]

theorem State.SourceFits.runParse_reachable {s : State} (h : s.SourceFits)
    (hr : ∀ i < frameSize s.cfg s.srcLength.toNat, s.srcReachable i) :
    runParse s = if s.srcComputedCrc s.srcLength.toNat ≠ s.srcReceivedCrc s.srcLength.toNat then .error .invalidCRC
      else .ok { s with eng :=
        (s.eng.writeFrame s.cfg ((List.range (frameSize s.cfg s.srcLength.toNat)).map s.srcByte) s.srcLength) } := by
  rw [h.runParse_eq, parseBody, if_neg (Nat.not_lt.mpr h.frameFits), memRead?_of_reachable (m := s.mem) hr]
  obtain ⟨h1, h2⟩ := frame_checksums s s.srcLength.toNat
  change (if frameComputedCrc s.cfg ((List.range (frameSize s.cfg s.srcLength.toNat)).map s.srcByte) s.srcLength.toNat
    ≠ frameReceivedCrc s.cfg ((List.range (frameSize s.cfg s.srcLength.toNat)).map s.srcByte) s.srcLength.toNat
    then _ else _) = _
  rw [h1, h2]
  rfl

theorem State.SourceFits.runParse_mismatch {s : State} (h : s.SourceFits)
    (hr : ∀ i < frameSize s.cfg s.srcLength.toNat, s.srcReachable i)
    (hc : s.srcComputedCrc s.srcLength.toNat ≠ s.srcReceivedCrc s.srcLength.toNat) :
    runParse s = .error .invalidCRC := by
  rw [h.runParse_reachable hr, if_pos hc]

theorem writeFrame_eq_parsedEngine (s : State) :
    s.eng.writeFrame s.cfg ((List.range (frameSize s.cfg s.srcLength.toNat)).map s.srcByte) s.srcLength
      = s.parsedEngine := by
  have hpos := headerSize_pos s.cfg
  have hcat : byteAt ((List.range (frameSize s.cfg s.srcLength.toNat)).map s.srcByte) offCategory = s.srcByte 0 := by
    rw [byteAt_map_range, if_pos (by unfold frameSize offCategory; omega)]; rfl
  have hseq : byteAt ((List.range (frameSize s.cfg s.srcLength.toNat)).map s.srcByte) (offSequence s.cfg)
      = s.srcByte (offSequence s.cfg) := by
    rw [byteAt_map_range, if_pos]
    unfold frameSize offSequence headerSize; cases s.cfg.hdrProfile <;> simp
  have hflags : frameFlags s.cfg ((List.range (frameSize s.cfg s.srcLength.toNat)).map s.srcByte)
      = match s.cfg.hdrProfile with
        | .minimal => 0#8
        | .extended => s.srcByte 1 := by
    unfold frameFlags offFlags
    cases hp : s.cfg.hdrProfile
    · rfl
    · simp only [byteAt_map_range]
      rw [if_pos (by unfold frameSize; omega)]
  have hlen : (framePayload s.cfg ((List.range (frameSize s.cfg s.srcLength.toNat)).map s.srcByte)
      s.srcLength.toNat).length = s.srcLength.toNat := by
    simp [framePayload, frameSize]; omega
  unfold Engine.writeFrame State.parsedEngine
  rw [writePayload_dispatch, hcat, hseq, hflags, hlen, (frame_checksums s s.srcLength.toNat).2]
  apply withPayload_congr
  intro i hi
  have : byteAt (framePayload s.cfg ((List.range (frameSize s.cfg s.srcLength.toNat)).map s.srcByte)
      s.srcLength.toNat) i = byteAt ((List.range (frameSize s.cfg s.srcLength.toNat)).map s.srcByte)
        (headerSize s.cfg + i) := by
    simp only [framePayload, byteAt, List.getD_eq_getElem?_getD]
    rw [List.getElem?_take_of_lt hi, List.getElem?_drop]
  rw [this, byteAt_map_range, if_pos (by unfold frameSize; omega)]

theorem State.SourceValid.runParse_ok {s : State} (h : s.SourceValid) :
    runParse s = .ok { s with eng := s.parsedEngine } := by
  rw [h.toSourceFits.runParse_reachable h.frameReachable, if_neg (by simp [h.checksumMatches]), writeFrame_eq_parsedEngine]

/-- Everything PARSE can do, in the order of R114. -/
theorem runParse_cases (s : State) :
    (s.SourceValid ∧ runParse s = .ok { s with eng := s.parsedEngine }) ∨
    (¬ s.SourceValid ∧ ∃ code, code ≠ .ok ∧ runParse s = .error code) := by
  by_cases hv : s.SourceValid
  · exact .inl ⟨hv, hv.runParse_ok⟩
  · refine .inr ⟨hv, ?_⟩
    by_cases ha : s.eng.srcAddr = 0#32
    · exact ⟨_, by decide, runParse_null ha⟩
    by_cases hs : minFrameSize s.cfg ≤ s.eng.srcLen.toNat
    swap
    · exact ⟨_, by decide, runParse_short ha (Nat.lt_of_not_le hs)⟩
    by_cases hr : s.srcReachable (offLength s.cfg)
    swap
    · exact ⟨_, by decide, runParse_lengthUnreachable ha hs hr⟩
    by_cases hl : s.srcLength.toNat ≤ s.cfg.maxPayload.size
    swap
    · exact ⟨_, by decide, runParse_lengthTooLarge ha hs hr (Nat.lt_of_not_le hl)⟩
    by_cases hf : frameSize s.cfg s.srcLength.toNat ≤ s.eng.srcLen.toNat
    swap
    · exact ⟨_, by decide, runParse_truncated ha hs hr (Nat.lt_of_not_le hf)⟩
    have fits : s.SourceFits := ⟨ha, hs, hr, hl, hf⟩
    by_cases hb : ∀ i < frameSize s.cfg s.srcLength.toNat, s.srcReachable i
    swap
    · push Not at hb
      obtain ⟨i, hi, hb⟩ := hb
      exact ⟨_, by decide, fits.runParse_unreachable hi hb⟩
    exact ⟨_, by decide, fits.runParse_mismatch hb fun hc => hv { fits with frameReachable := hb, checksumMatches := hc }⟩

/-! ### SERIALIZE -/

theorem runSerialize_null {s : State} (h : s.eng.dstAddr = 0#32) : runSerialize s = .error .invalidArgument := by
  simp [runSerialize, h]

theorem runSerialize_tooLong {s : State} (hd : s.eng.dstAddr ≠ 0#32) (h : s.cfg.maxPayload.size < s.eng.fLength.toNat) :
    runSerialize s = .error .invalidState := by
  simp [runSerialize, hd, h]

theorem runSerialize_noRoom {s : State} (hd : s.eng.dstAddr ≠ 0#32) (hl : s.eng.fLength.toNat ≤ s.cfg.maxPayload.size)
    (h : s.eng.dstCap.toNat < frameSize s.cfg s.eng.fLength.toNat) : runSerialize s = .error .invalidSize := by
  simp [runSerialize, hd, Nat.not_lt.mpr hl, h]

theorem runSerialize_unreachable {s : State} (hd : s.eng.dstAddr ≠ 0#32)
    (hl : s.eng.fLength.toNat ≤ s.cfg.maxPayload.size)
    (hc : frameSize s.cfg s.eng.fLength.toNat ≤ s.eng.dstCap.toNat) {i : Nat}
    (hi : i < frameSize s.cfg s.eng.fLength.toNat) (h : ¬ s.dstReachable i) : runSerialize s = .error .busError := by
  have : ¬ admitsAll s.cfg s.eng.dstAddr.toNat (frameSize s.cfg s.eng.fLength.toNat) = true := by
    rw [admitsAll_iff]; exact fun hall => h (hall i hi)
  simp [runSerialize, hd, Nat.not_lt.mpr hl, Nat.not_lt.mpr hc, this]

theorem State.DestinationFits.runSerialize_ok {s : State} (h : s.DestinationFits) :
    runSerialize s = .ok { s with
      mem := s.mem.writeBytes s.eng.dstAddr.toNat (frameBytes s.cfg s.eng)
      eng := { s.eng with bytesWritten := BitVec.ofNat 32 (frameSize s.cfg s.eng.fLength.toNat) } } := by
  have hall := admitsAll_iff.mpr (show ∀ i < frameSize s.cfg s.eng.fLength.toNat, _ from h.reachable)
  simp [runSerialize, h.notNull, Nat.not_lt.mpr h.lengthFits, Nat.not_lt.mpr h.frameFits, hall]

theorem runSerialize_cases (s : State) :
    (s.DestinationFits ∧ runSerialize s = .ok { s with
      mem := s.mem.writeBytes s.eng.dstAddr.toNat (frameBytes s.cfg s.eng)
      eng := { s.eng with bytesWritten := BitVec.ofNat 32 (frameSize s.cfg s.eng.fLength.toNat) } }) ∨
    (¬ s.DestinationFits ∧ ∃ code, code ≠ .ok ∧ runSerialize s = .error code) := by
  by_cases hv : s.DestinationFits
  · exact .inl ⟨hv, hv.runSerialize_ok⟩
  · refine .inr ⟨hv, ?_⟩
    by_cases hd : s.eng.dstAddr = 0#32
    · exact ⟨_, by decide, runSerialize_null hd⟩
    by_cases hl : s.eng.fLength.toNat ≤ s.cfg.maxPayload.size
    swap
    · exact ⟨_, by decide, runSerialize_tooLong hd (Nat.lt_of_not_le hl)⟩
    by_cases hc : frameSize s.cfg s.eng.fLength.toNat ≤ s.eng.dstCap.toNat
    swap
    · exact ⟨_, by decide, runSerialize_noRoom hd hl (Nat.lt_of_not_le hc)⟩
    have : ¬ ∀ i < frameSize s.cfg s.eng.fLength.toNat, s.dstReachable i := fun hb => hv ⟨hd, hl, hc, hb⟩
    push Not at this
    obtain ⟨i, hi, hb⟩ := this
    exact ⟨_, by decide, runSerialize_unreachable hd hl hc hi hb⟩

@[simp] theorem headerBytes_length (c : Config) (e : Engine) : (headerBytes c e).length = headerSize c := by
  unfold headerBytes headerSize; cases c.hdrProfile <;> rfl

theorem rawView_length {c : Config} {e : Engine} (h : e.fRaw.length = c.maxPayload.size) :
    (rawView e).length = c.maxPayload.size := by
  have hmax : 12 ≤ c.maxPayload.size := by cases c.maxPayload <;> decide
  unfold rawView
  cases e.fKind
  · exact h
  · rw [overlay_length, h]
    simpa [telemetryBytes, enc32, h] using hmax
  · rw [overlay_length, h]
    simp only [batteryBytes, enc16, List.length_append, List.length_cons, List.length_nil, h]
    omega

/-- R96: the raw view byte by byte. -/
theorem byteAt_rawView (e : Engine) (i : Nat) : byteAt (rawView e) i = e.viewByte i := by
  unfold rawView Engine.viewByte
  cases e.fKind
  · rfl
  · rw [byteAt_overlay]; rfl
  · rw [byteAt_overlay]; rfl

theorem frameBody_length {c : Config} {e : Engine} (h : e.fRaw.length = c.maxPayload.size)
    (hl : e.fLength.toNat ≤ c.maxPayload.size) : (frameBody c e).length = headerSize c + e.fLength.toNat := by
  simp [frameBody, rawView_length h, hl]

theorem frameBytes_length {c : Config} {e : Engine} (h : e.fRaw.length = c.maxPayload.size)
    (hl : e.fLength.toNat ≤ c.maxPayload.size) : (frameBytes c e).length = frameSize c e.fLength.toNat := by
  simp [frameBytes, frameBody_length h hl, enc16, frameSize]

end Sys2Proof.Machine
end

