-- ==== Sys2Proof/Laws/Crc.lean ====
section
/-! SUPPORT. The algebra of CrcStep: each shift is linear over XOR and loses no information. -/

namespace Sys2Proof.Machine

theorem crcShift_xor (r q : Half) : crcShift (r ^^^ q) = crcShift r ^^^ crcShift q := by
  unfold crcShift
  rw [BitVec.msb_xor, BitVec.shiftLeft_xor_distrib]
  generalize r <<< 1 = a
  generalize q <<< 1 = b
  cases r.msb <;> cases q.msb <;> simp only [Bool.xor_false, Bool.xor_true, Bool.not_true, Bool.not_false,
    if_true, Bool.false_eq_true, if_false]
  · exact BitVec.xor_assoc a b _
  · rw [BitVec.xor_assoc, BitVec.xor_assoc, BitVec.xor_comm b]
  · rw [BitVec.xor_assoc, BitVec.xor_comm b, ← BitVec.xor_assoc _ _ b, BitVec.xor_self, BitVec.zero_xor]

theorem crcShifts_xor (n : Nat) (r q : Half) : crcShifts n (r ^^^ q) = crcShifts n r ^^^ crcShifts n q := by
  induction n generalizing r q with
  | zero => rfl
  | succ n ih => simp only [crcShifts, crcShift_xor, ih]

/-- The polynomial's lowest bit is 1, so a shift can be undone: only the zero register shifts to zero. -/
theorem crcShift_eq_zero {r : Half} (h : crcShift r = 0#16) : r = 0#16 := by
  unfold crcShift at h
  split at h
  · have := congrArg (fun v : Half => v.getLsbD 0) h
    simp at this
  · rename_i hm
    apply BitVec.eq_of_getLsbD_eq
    intro i hi
    by_cases h15 : i = 15
    · subst h15
      simpa [BitVec.msb_eq_getLsbD_last] using hm
    · have := congrArg (fun v : Half => v.getLsbD (i + 1)) h
      rw [BitVec.getLsbD_eq_getElem hi, BitVec.getLsbD_zero]
      simpa [show i + 1 < 16 by omega] using this

theorem crcShifts_eq_zero {n : Nat} {r : Half} (h : crcShifts n r = 0#16) : r = 0#16 := by
  induction n generalizing r with
  | zero => exact h
  | succ n ih => exact crcShift_eq_zero (ih h)

theorem crcShifts_injective {n : Nat} {r q : Half} (h : crcShifts n r = crcShifts n q) : r = q := by
  have : crcShifts n (r ^^^ q) = 0#16 := by rw [crcShifts_xor, h, BitVec.xor_self]
  exact BitVec.xor_eq_zero_iff.mp (crcShifts_eq_zero this)

/-- CrcStep loses no register: the same byte keeps two different registers apart. -/
theorem crcStep_injective {r q : Half} {b : Byte} (h : crcStep r b = crcStep q b) : r = q :=
  (BitVec.xor_left_inj _).mp (crcShifts_injective h)

/-- CrcStep loses no byte: two different bytes take one register to different registers. -/
theorem crcStep_byte_injective {r : Half} {b d : Byte} (h : crcStep r b = crcStep r d) : b = d := by
  have h2 := (BitVec.xor_right_inj _).mp (crcShifts_injective h)
  apply BitVec.eq_of_getLsbD_eq
  intro i hi
  have := congrArg (fun v : Half => v.getLsbD (i + 8)) h2
  simpa [show i + 8 < 16 by omega, hi] using this

theorem foldl_crcStep_injective {bs : List Byte} {r q : Half} (h : bs.foldl crcStep r = bs.foldl crcStep q) : r = q := by
  induction bs generalizing r q with
  | nil => exact h
  | cons b bs ih => exact crcStep_injective (ih h)

/-- R74, law 2. -/
theorem crc16_append (xs ys : List Byte) : crc16 (xs ++ ys) = ys.foldl crcStep (crc16 xs) := List.foldl_append

end Sys2Proof.Machine
end

