-- ==== Sys2Proof/Laws/Invariant.lean ====
section
/-! SUPPORT. How the shared operations meet the invariant: each keeps an engine's own part, and the parts that tie
engines together survive a swap. -/

namespace Sys2Proof.Machine

/-! ### An engine's own part -/

theorem Engine.reset_inv (c : Config) : (Engine.reset c).Inv c :=
  ⟨by simp [Engine.reset], by simp [Engine.reset], by simp [Engine.reset], fun _ => rfl, fun _ => rfl⟩

theorem ResultCode.bits_le (code : ResultCode) : code.bits.toNat ≤ 6 := by cases code <;> decide

theorem ResultCode.bits_eq_zero {code : ResultCode} : code.bits = 0#4 ↔ code = .ok := by cases code <;> decide

theorem Engine.Inv.finish {c : Config} {e : Engine} (h : e.Inv c) (code : ResultCode) : (e.finish code).Inv c :=
  ⟨h.rawLength, code.bits_le, by simp, by simp, h.flagsMinimal⟩

theorem Engine.Inv.issue {c : Config} {e : Engine} (h : e.Inv c) (v : Word) : (e.issue v).Inv c :=
  ⟨h.rawLength, by simp, by simp, fun _ => rfl, h.flagsMinimal⟩

@[simp] theorem writeRawWord_length (raw : List Byte) (k : Nat) (v : Word) : (writeRawWord raw k v).length = raw.length := by
  simp [writeRawWord, setRawByte]

/-- R102: a register write keeps the engine's invariant and its STATUS. -/
theorem Engine.Inv.writeReg {c : Config} {e : Engine} (h : e.Inv c) (r : Reg) (v : Word) : (writeReg c e r v).Inv c := by
  cases r
  case fFlags =>
    exact ⟨h.rawLength, h.codeLegal, h.busyNotDone, h.codeWithoutDone, fun hp => by
      simp only [Sys2Proof.Machine.writeReg, writeFlags, hp]; exact h.flagsMinimal hp⟩
  case fRawWord k =>
    exact ⟨by simp only [Sys2Proof.Machine.writeReg, writeRawWord_length]; exact h.rawLength, h.codeLegal,
      h.busyNotDone, h.codeWithoutDone, h.flagsMinimal⟩
  all_goals exact ⟨h.rawLength, h.codeLegal, h.busyNotDone, h.codeWithoutDone, h.flagsMinimal⟩

theorem writeReg_statusBusy (c : Config) (e : Engine) (r : Reg) (v : Word) :
    (writeReg c e r v).statusBusy = e.statusBusy := by
  cases r <;> rfl

theorem Engine.Inv.withPayload {c : Config} {e : Engine} (h : e.Inv c) (cat : Byte) (n : Nat) (p : Nat → Byte) :
    (e.withPayload c cat n p).Inv c :=
  ⟨by simp [Engine.withPayload], h.codeLegal, h.busyNotDone, h.codeWithoutDone, h.flagsMinimal⟩

theorem State.parsedEngine_inv {s : State} (h : s.eng.Inv s.cfg) : s.parsedEngine.Inv s.cfg := by
  unfold State.parsedEngine
  apply Engine.Inv.withPayload
  refine ⟨h.rawLength, h.codeLegal, h.busyNotDone, h.codeWithoutDone, fun hp => ?_⟩
  simp [hp]

/-! ### Pending ranges -/

theorem Span.overlaps_comm (r q : Span) : r.overlaps q = q.overlaps r := by
  simp [Span.overlaps, Nat.max_comm, Nat.min_comm]

theorem rangesConflict_comm (c : Config) (e f : Engine) : rangesConflict c e f = rangesConflict c f e := by
  unfold rangesConflict
  rw [Span.overlaps_comm (e.writeSpan c) (f.writeSpan c)]
  cases (e.writeSpan c).overlaps f.readSpan <;> cases (f.writeSpan c).overlaps (e.writeSpan c) <;>
    cases (f.writeSpan c).overlaps e.readSpan <;> rfl

theorem pendingConflict_comm (c : Config) (e f : Engine) : pendingConflict c e f = pendingConflict c f e := by
  unfold pendingConflict
  rw [rangesConflict_comm, Bool.and_comm e.statusBusy]

theorem pendingConflict_idle {c : Config} {e : Engine} (h : e.statusBusy = false) (f : Engine) :
    pendingConflict c e f = false := by
  simp [pendingConflict, h]

theorem Span.overlaps_of_common {r q : Span} {a : Nat} (hr : r.has a = true) (hq : q.has a = true) :
    r.overlaps q = true := by
  simp only [Span.has, Bool.and_eq_true, decide_eq_true_eq] at hr hq
  simp only [Span.overlaps, decide_eq_true_eq]
  omega

/-- R123: the four words that decode, and every other word. -/
theorem decodeCommand_cases (w : Word) :
    (w = 0x00000001#32 ∧ decodeCommand w = .ok .crc16) ∨ (w = 0x00000002#32 ∧ decodeCommand w = .ok .parse) ∨
    (w = 0x00000003#32 ∧ decodeCommand w = .ok .fill) ∨ (w = 0x00000004#32 ∧ decodeCommand w = .ok .serialize) ∨
    (w ≠ 0x00000001#32 ∧ w ≠ 0x00000002#32 ∧ w ≠ 0x00000003#32 ∧ w ≠ 0x00000004#32 ∧
      decodeCommand w = .error (.illegalCommand w)) := by
  by_cases h1 : w = 0x00000001#32
  · subst h1; exact .inl ⟨rfl, rfl⟩
  by_cases h2 : w = 0x00000002#32
  · subst h2; exact .inr (.inl ⟨rfl, rfl⟩)
  by_cases h3 : w = 0x00000003#32
  · subst h3; exact .inr (.inr (.inl ⟨rfl, rfl⟩))
  by_cases h4 : w = 0x00000004#32
  · subst h4; exact .inr (.inr (.inr (.inl ⟨rfl, rfl⟩)))
  exact .inr (.inr (.inr (.inr ⟨h1, h2, h3, h4, by
    simp [decodeCommand, commandTable, List.lookup_cons, beq_false_of_ne h1, beq_false_of_ne h2, beq_false_of_ne h3,
      beq_false_of_ne h4]⟩)))

theorem spanOf_has {base len a : Nat} : (spanOf base len).has a = true ↔ a < 2 ^ 32 ∧ base ≤ a ∧ a < base + len := by
  rw [Span.has, Bool.and_eq_true, decide_eq_true_iff, decide_eq_true_iff]
  simp only [spanOf, Nat.lt_min]
  omega

@[simp] theorem noSpan_has (a : Nat) : noSpan.has a = false := by simp [noSpan, Span.has]

/-- R123: the read range, in addresses. -/
theorem Engine.readSpan_has {e : Engine} {a : Nat} : e.readSpan.has a = true ↔ e.ReadsAt a := by
  unfold Engine.readSpan Engine.ReadsAt
  rcases decodeCommand_cases e.cmdLatch with ⟨h, hd⟩ | ⟨h, hd⟩ | ⟨h, hd⟩ | ⟨h, hd⟩ | ⟨h1, h2, h3, h4, hd⟩ <;>
    simp_all [spanOf_has]

/-- R123: the write range, in addresses. -/
theorem Engine.writeSpan_has {c : Config} {e : Engine} {a : Nat} : (e.writeSpan c).has a = true ↔ e.WritesAt c a := by
  unfold Engine.writeSpan Engine.WritesAt
  rcases decodeCommand_cases e.cmdLatch with ⟨h, hd⟩ | ⟨h, hd⟩ | ⟨h, hd⟩ | ⟨h, hd⟩ | ⟨h1, h2, h3, h4, hd⟩ <;>
    simp_all [spanOf_has, frameSize]

/-- Two ranges overlap exactly when they have an address in common. -/
theorem Span.overlaps_iff {r q : Span} : r.overlaps q = true ↔ ∃ a, r.has a = true ∧ q.has a = true := by
  refine ⟨fun h => ⟨max r.lo q.lo, ?_⟩, fun ⟨a, hr, hq⟩ => Span.overlaps_of_common hr hq⟩
  simp only [Span.overlaps, Span.has, Bool.and_eq_true, decide_eq_true_eq] at h ⊢
  omega

/-- R118, R126: the ranges of two commands conflict exactly when one writes a byte that the other reads or writes. -/
theorem rangesConflict_iff {c : Config} {e f : Engine} : rangesConflict c e f = true ↔
    ∃ a, e.WritesAt c a ∧ f.ReadsAt a ∨ e.WritesAt c a ∧ f.WritesAt c a ∨ e.ReadsAt a ∧ f.WritesAt c a := by
  simp only [rangesConflict, Bool.or_eq_true, Span.overlaps_iff, Engine.readSpan_has, Engine.writeSpan_has]
  constructor
  · rintro ((⟨a, h⟩ | ⟨a, h⟩) | ⟨a, h⟩)
    · exact ⟨a, .inl h⟩
    · exact ⟨a, .inr (.inl h)⟩
    · exact ⟨a, .inr (.inr h.symm)⟩
  · rintro ⟨a, h | h | h⟩
    · exact .inl (.inl ⟨a, h⟩)
    · exact .inl (.inr ⟨a, h⟩)
    · exact .inr ⟨a, h.symm⟩

/-! ### The state's invariant -/

/-- The invariant reads only the parameters, the engines and memory. -/
theorem State.Inv.congr {s t : State} (h : s.Inv) (hc : t.cfg = s.cfg) (he : t.engines = s.engines) (hm : t.mem = s.mem) :
    t.Inv := by
  refine ⟨?_, ?_, ?_, ?_, ?_, ?_⟩
  · rw [hc]; exact h.parameters
  · rw [hc, he]; exact h.windows
  · rw [hm]; exact h.memCanonical
  · rw [hc, hm]; exact h.memExists
  · rw [hc, he]; exact h.enginesInv
  · rw [hc, he]; exact h.rangesApart

/-- Putting another engine in focus keeps the invariant. -/
theorem State.Inv.swap {s : State} (h : s.Inv) (k : Nat) : (s.swap k).Inv := by
  have hp := s.swap_engines_perm k
  refine ⟨?_, ?_, ?_, ?_, ?_, ?_⟩
  · simpa using h.parameters
  · simpa using h.windows
  · simpa using h.memCanonical
  · simpa using h.memExists
  · intro e he
    simpa using h.enginesInv e (hp.subset he)
  · simp only [State.swap_cfg]
    exact (hp.pairwise_iff fun {a b} hab => by rw [pendingConflict_comm]; exact hab).mpr h.rangesApart

theorem State.Inv.eng {s : State} (h : s.Inv) : s.eng.Inv s.cfg := h.enginesInv s.eng (by simp [State.engines])

/-- The invariant after a change of the engine in focus and of memory. -/
theorem State.Inv.update {s t : State} (h : s.Inv) (hc : t.cfg = s.cfg) (ho : t.others = s.others)
    (hm : t.mem.wf = true) (hx : ∀ p ∈ t.mem, admits s.cfg p.1 = true) (he : t.eng.Inv s.cfg)
    (hr : ∀ f ∈ s.others, pendingConflict s.cfg t.eng f = false) : t.Inv := by
  have hw := h.windows
  have hi := h.enginesInv
  have ha := h.rangesApart
  simp only [State.engines, List.length_cons, List.mem_cons, List.pairwise_cons] at hw hi ha
  refine ⟨?_, ?_, hm, ?_, ?_, ?_⟩
  · rw [hc]; exact h.parameters
  · rw [hc]; simp only [State.engines, ho, List.length_cons]; exact hw
  · rw [hc]; exact hx
  · intro e hmem
    simp only [State.engines, ho, List.mem_cons] at hmem
    rw [hc]
    rcases hmem with rfl | hmem
    · exact he
    · exact hi e (.inr hmem)
  · simp only [State.engines, ho, List.pairwise_cons, hc]
    exact ⟨hr, ha.2⟩

/-- R118: what the invariant says of pending commands, in addresses. -/
theorem State.Inv.buffersApart {s : State} (h : s.Inv) : s.BuffersApart := by
  have key : ∀ (j k : Nat) (e f : Engine), j < k → s.engines[j]? = some e → s.engines[k]? = some f →
      pendingConflict s.cfg e f = false := by
    intro j k e f hjk he hf
    obtain ⟨hj, rfl⟩ := List.getElem?_eq_some_iff.mp he
    obtain ⟨hk, rfl⟩ := List.getElem?_eq_some_iff.mp hf
    exact List.pairwise_iff_getElem.mp h.rangesApart j k hj hk hjk
  intro j k e f a hjk he hf hbe hbf hw
  have hc : pendingConflict s.cfg e f = false := by
    rcases Nat.lt_or_gt_of_ne hjk with hlt | hgt
    · exact key j k e f hlt he hf
    · rw [pendingConflict_comm]
      exact key k j f e hgt hf he
  simp only [pendingConflict, hbe, hbf, Bool.true_and] at hc
  have hn := mt (rangesConflict_iff (c := s.cfg) (e := e) (f := f)).mpr (by simp [hc])
  exact ⟨fun hr => hn ⟨a, .inl ⟨hw, hr⟩⟩, fun hr => hn ⟨a, .inr (.inl ⟨hw, hr⟩)⟩⟩

/-! ### `State.onEngine` and the choice of the next step -/

theorem State.onEngine_next {s t : State} {k : Nat} {f : State → Host.Outcome State Fault Refusal}
    (h : s.onEngine k f = .next t) : ∃ u, f (s.swap k) = .next u ∧ t = u.swap k := by
  unfold State.onEngine at h
  split at h
  · rename_i u hu
    cases h
    exact ⟨u, hu, rfl⟩
  · exact absurd h (by simp)
  · exact absurd h (by simp)

/-- An agent that has the turn has a step. -/
theorem pickTurn_enabled {s : State} {l : List Turn} {t : Turn} {ts : List Turn} (h : pickTurn s l = some (t, ts)) :
    turnEnabled s t = true := by
  induction l with
  | nil =>
    simp only [pickTurn, defaultTurn] at h
    split at h
    · rename_i k hk
      simp only [Option.map_some, Option.some.injEq, Prod.mk.injEq] at h
      obtain ⟨hlt, hb, -⟩ := List.findIdx?_eq_some_iff_getElem.mp hk
      rw [← h.1]
      simp [turnEnabled, engineEnabled, hlt, hb]
    · split at h
      · simp only [Option.map_some, Option.some.injEq, Prod.mk.injEq] at h
        rw [← h.1]
        assumption
      · simp at h
  | cons u us ih =>
    simp only [pickTurn] at h
    split at h
    · simp only [Option.some.injEq, Prod.mk.injEq] at h
      rw [← h.1]
      assumption
    · exact ih h

/-- Taking a turn uses up at least one choice, if there is one. -/
theorem pickTurn_length {s : State} {l : List Turn} {t : Turn} {ts : List Turn} (h : pickTurn s l = some (t, ts)) :
    ts.length ≤ l.length - 1 := by
  induction l with
  | nil =>
    simp only [pickTurn] at h
    cases hd : defaultTurn s with
    | none => simp [hd] at h
    | some d => simp [hd] at h; simp [h.2]
  | cons u us ih =>
    simp only [pickTurn] at h
    split at h
    · simp only [Option.some.injEq, Prod.mk.injEq] at h
      simp [h.2]
    · have := ih h
      simp only [List.length_cons]
      omega

/-- Everything a step that answers a next state can be: an engine's, the host's, or the idle step of a final state. -/
theorem step_cases {s t : State} (h : step s = .next t) :
    s.cfg.wf = true ∧ s.hostFault = none ∧
    ((∃ k ts, engineEnabled s k = true ∧ pickTurn s s.turns = some (.engine k, ts) ∧
        State.onEngine { s with turns := ts } k engineStep = .next t) ∨
     (∃ a rest ts, s.hostQueue = a :: rest ∧ actionEnabled s a = true ∧ pickTurn s s.turns = some (.host, ts) ∧
        hostStep a { s with turns := ts, hostQueue := rest } = .next t) ∨
     (pickTurn s s.turns = none ∧ s.hostQueue = [] ∧ t = s)) := by
  unfold step at h
  split at h
  swap
  · exact absurd h (by simp)
  rename_i hc
  split at h
  · exact absurd h (by simp)
  rename_i hf
  refine ⟨hc, hf, ?_⟩
  unfold systemStep at h
  split at h
  · rename_i u ts hp
    have hen := pickTurn_enabled hp
    cases u with
    | engine k => exact .inl ⟨k, ts, hen, hp, h⟩
    | host =>
      simp only [turnEnabled, hostEnabled] at hen
      simp only [takeTurn] at h
      cases hq : s.hostQueue with
      | nil => simp [hq] at hen
      | cons a rest =>
        rw [hq] at hen h
        exact .inr (.inl ⟨a, rest, ts, rfl, hen, hp, h⟩)
  · rename_i hp
    unfold noTurn at h
    split at h
    · rename_i hq
      cases h
      exact .inr (.inr ⟨hp, hq, rfl⟩)
    · exact absurd h (by simp)

/-- R105: what the engine step can do: one of the four commands, or IllegalCommand. -/
theorem engineStep_cases (s : State) :
    (∃ i, (i = .crc16 ∨ i = .parse ∨ i = .fill ∨ i = .serialize) ∧ decodeCommand s.eng.cmdLatch = .ok i ∧
      engineStep s = exec i s) ∨
    (decodeCommand s.eng.cmdLatch = .error (.illegalCommand s.eng.cmdLatch) ∧
      engineStep s = .next (s.finish .illegalCommand)) := by
  unfold engineStep decodeCommand
  cases hl : commandTable.lookup s.eng.cmdLatch with
  | none => exact .inr ⟨rfl, rfl⟩
  | some i =>
    refine .inl ⟨i, ?_, rfl, rfl⟩
    simp only [commandTable, List.lookup_cons, List.lookup_nil] at hl
    repeat' split at hl
    all_goals simp_all

end Sys2Proof.Machine
end

