-- ==== Sys2Proof/Laws/PerInstr.lean ====
section
/-! SUPPORT. Facts about every instruction as syntax, one lemma for each constructor. -/

namespace Sys2Proof.Laws.EncodedForm

/-- R57, R58, R69: the encoding of a well-formed instruction has the form of its kind: a command word with a nonzero
OPCODE in [7:0] and 0 in [31:8], or a selector whose OFFSET bits [1:0] are 0 and whose WE bit tells a write from a read. -/
def Statement (i : Instr) : Prop :=
  i.wellFormed = true →
    match encode i with
    | .command w => w.extractLsb' 8 24 = 0#24 ∧ w.extractLsb' 0 8 ≠ 0#8
    | .transaction sel wdata =>
      sel.extractLsb' 0 2 = 0#2 ∧
        (sel.getLsbD 9 = true ∧ i = .regWrite (sel.extractLsb' 0 9).toNat wdata ∨
         sel.getLsbD 9 = false ∧ i = .regRead (sel.extractLsb' 0 9).toNat)

/-- OFFSET, taken back from the selector. -/
theorem selectorOf_offset (we : Bool) {off : Nat} (h : offsetWellFormed off = true) :
    (selectorOf we off).extractLsb' 0 2 = 0#2 ∧ (selectorOf we off).getLsbD 9 = we ∧
      ((selectorOf we off).extractLsb' 0 9).toNat = off := by
  have hb : off < 0x200 ∧ off % 4 = 0 := by simpa [offsetWellFormed] using h
  have hoff : (selectorOf we off).extractLsb' 0 9 = BitVec.ofNat 9 off := by
    apply BitVec.eq_of_getLsbD_eq
    intro i hi
    rw [BitVec.getLsbD_extractLsb', Nat.zero_add, selectorOf, BitVec.getLsbD_append]
    simp [hi]
  refine ⟨?_, ?_, ?_⟩
  · apply BitVec.eq_of_toNat_eq
    have := congrArg (fun v : BitVec 9 => v.toNat % 4) hoff
    simp only [BitVec.extractLsb'_toNat, BitVec.toNat_ofNat, Nat.shiftRight_zero] at this ⊢
    omega
  · rw [selectorOf, BitVec.getLsbD_append]
    cases we <;> simp
  · rw [hoff]
    simp; omega

theorem crc16 : Statement .crc16 := fun _ => ⟨by decide, by decide⟩

theorem parse : Statement .parse := fun _ => ⟨by decide, by decide⟩

theorem fill : Statement .fill := fun _ => ⟨by decide, by decide⟩

theorem serialize : Statement .serialize := fun _ => ⟨by decide, by decide⟩

theorem regRead (off : Nat) : Statement (.regRead off) := fun h => by
  obtain ⟨h1, h2, h3⟩ := selectorOf_offset false h
  exact ⟨h1, .inr ⟨h2, by rw [h3]⟩⟩

theorem regWrite (off : Nat) (wdata : Word) : Statement (.regWrite off wdata) := fun h => by
  obtain ⟨h1, h2, h3⟩ := selectorOf_offset true h
  exact ⟨h1, .inl ⟨h2, by rw [h3]⟩⟩

end Sys2Proof.Laws.EncodedForm
end

