-- ==== Sys2Proof/Laws/Steps.lean ====
section
/-! SUPPORT. Everything a command, a register transaction, the engine step and the host step can do, said once each, for
proofs to cite in place of unfolding them. -/

namespace Sys2Proof.Machine

/-! ### The four commands -/

theorem runCrc16_cases (s : State) :
    (∃ v, runCrc16 s = .ok { s with eng := { s.eng with crcResult := v } }) ∨
    (∃ code, code ≠ .ok ∧ runCrc16 s = .error code) := by
  by_cases hn : s.eng.srcLen = 0#32
  · exact .inl ⟨_, runCrc16_empty hn⟩
  by_cases ha : s.eng.srcAddr = 0#32
  · exact .inr ⟨_, by decide, runCrc16_null hn ha⟩
  by_cases hr : ∀ i < s.eng.srcLen.toNat, s.srcReachable i
  · exact .inl ⟨_, runCrc16_ok hn ha hr⟩
  · push Not at hr
    obtain ⟨i, hi, hr⟩ := hr
    exact .inr ⟨_, by decide, runCrc16_unreachable hn ha hi hr⟩

theorem runFill_cases (s : State) :
    (s.eng.fLength.toNat ≤ s.cfg.maxPayload.size ∧
      runFill s = .ok { s with eng := s.eng.withPayload s.cfg s.eng.fCategory s.eng.fLength.toNat s.srcByte }) ∨
    (∃ code, code ≠ .ok ∧ runFill s = .error code) := by
  by_cases hl : s.eng.fLength.toNat ≤ s.cfg.maxPayload.size
  swap
  · exact .inr ⟨_, by decide, runFill_tooLong (by omega)⟩
  by_cases ha : 0 < s.eng.fLength.toNat → s.eng.srcAddr ≠ 0#32
  swap
  · push Not at ha
    exact .inr ⟨_, by decide, runFill_null hl ha.1 ha.2⟩
  by_cases hr : ∀ i < s.eng.fLength.toNat, s.srcReachable i
  · exact .inl ⟨hl, runFill_ok hl ha hr⟩
  · push Not at hr
    obtain ⟨i, hi, hr⟩ := hr
    exact .inr ⟨_, by decide, runFill_unreachable hl (ha (by omega)) hi hr⟩

/-- One of the four commands. -/
def IsCommand (i : Instr) : Prop := i = .crc16 ∨ i = .parse ∨ i = .fill ∨ i = .serialize

/-- Everything a command can do: fail with a code, or make the writes of its OK case. -/
theorem exec_command_cases {i : Instr} (hi : IsCommand i) (s : State) :
    (∃ code : ResultCode, code ≠ .ok ∧ exec i s = .next (s.finish code)) ∨
    (i = .crc16 ∧ ∃ v, exec i s = .next (State.finish { s with eng := { s.eng with crcResult := v } } .ok)) ∨
    (i = .parse ∧ s.SourceValid ∧ exec i s = .next (State.finish { s with eng := s.parsedEngine } .ok)) ∨
    (i = .fill ∧ s.eng.fLength.toNat ≤ s.cfg.maxPayload.size ∧ exec i s = .next (State.finish
      { s with eng := s.eng.withPayload s.cfg s.eng.fCategory s.eng.fLength.toNat s.srcByte } .ok)) ∨
    (i = .serialize ∧ s.DestinationFits ∧ exec i s = .next (State.finish { s with
      mem := s.mem.writeBytes s.eng.dstAddr.toNat (frameBytes s.cfg s.eng)
      eng := { s.eng with bytesWritten := BitVec.ofNat 32 (frameSize s.cfg s.eng.fLength.toNat) } } .ok)) := by
  rcases hi with rfl | rfl | rfl | rfl
  · have hx : exec .crc16 s = .next (s.complete (runCrc16 s)) := rfl
    rcases runCrc16_cases s with ⟨v, h⟩ | ⟨c, hc, h⟩ <;> rw [h] at hx
    · exact .inr (.inl ⟨rfl, v, hx⟩)
    · exact .inl ⟨c, hc, hx⟩
  · have hx : exec .parse s = .next (s.complete (runParse s)) := rfl
    rcases runParse_cases s with ⟨hv, h⟩ | ⟨-, c, hc, h⟩ <;> rw [h] at hx
    · exact .inr (.inr (.inl ⟨rfl, hv, hx⟩))
    · exact .inl ⟨c, hc, hx⟩
  · have hx : exec .fill s = .next (s.complete (runFill s)) := rfl
    rcases runFill_cases s with ⟨hl, h⟩ | ⟨c, hc, h⟩ <;> rw [h] at hx
    · exact .inr (.inr (.inr (.inl ⟨rfl, hl, hx⟩)))
    · exact .inl ⟨c, hc, hx⟩
  · have hx : exec .serialize s = .next (s.complete (runSerialize s)) := rfl
    rcases runSerialize_cases s with ⟨hv, h⟩ | ⟨-, c, hc, h⟩ <;> rw [h] at hx
    · exact .inr (.inr (.inr (.inr ⟨rfl, hv, hx⟩)))
    · exact .inl ⟨c, hc, hx⟩

/-! ### Register transactions -/

/-- A read changes the data it returns, the count of free values, or the sticky mark, and nothing else. -/
theorem regRead_cases (off : Nat) (s : State) :
    ∃ t, exec (.regRead off) s = .next t ∧ t = { s with rdata := t.rdata, draws := t.draws, hostFault := t.hostFault } := by
  show ∃ t, execRegRead off s = .next t ∧ _
  unfold execRegRead
  split
  · split <;> exact ⟨_, rfl, rfl⟩
  · exact ⟨_, rfl, rfl⟩

theorem State.storeReg_of_ne {s : State} {r : Reg} (h : r ≠ .cmd) (v : Word) :
    s.storeReg r v = { s with eng := writeReg s.cfg s.eng r v } := by
  revert h
  cases r <;> simp [State.storeReg]

/-- A write marks a host fault and nothing else, stores into one register, or issues a command. -/
theorem regWrite_cases (off : Nat) (v : Word) (s : State) :
    ∃ t, exec (.regWrite off v) s = .next t ∧
      ((∃ r, t = s.recordFault r) ∨
       (s.eng.statusBusy = false ∧ ∃ r, t = { s with eng := writeReg s.cfg s.eng r v }) ∨
       (s.eng.statusBusy = false ∧ t = { s with eng := s.eng.issue v } ∧
        ∀ f ∈ s.others, pendingConflict s.cfg (s.eng.issue v) f = false)) := by
  show ∃ t, execRegWrite off v s = .next t ∧ _
  unfold execRegWrite
  split
  swap
  · exact ⟨_, rfl, .inl ⟨_, rfl⟩⟩
  split
  · exact ⟨_, rfl, .inl ⟨_, rfl⟩⟩
  rename_i hb
  simp only [Bool.not_eq_true] at hb
  by_cases hr : regAt off = .cmd
  · rw [hr]
    refine ⟨s.issueCommand v, rfl, ?_⟩
    unfold State.issueCommand
    split
    · exact .inl ⟨_, rfl⟩
    · rename_i hc
      exact .inr (.inr ⟨hb, rfl, by simpa using hc⟩)
  · exact ⟨_, rfl, .inr (.inl ⟨hb, _, State.storeReg_of_ne hr v⟩)⟩

/-! ### The engine step -/

/-- R105: the engine step never stops, ends the command, and leaves the host's side and the other engines alone. -/
theorem engineStep_next (s : State) :
    ∃ t, engineStep s = .next t ∧ t.eng.statusBusy = false ∧ t.others = s.others ∧ t.cfg = s.cfg ∧
      t.hostFault = s.hostFault ∧ t.hostQueue = s.hostQueue ∧ t.turns = s.turns := by
  rcases engineStep_cases s with ⟨i, hi, -, hx⟩ | ⟨-, hx⟩
  · rw [hx]
    rcases exec_command_cases hi s with ⟨c, -, h⟩ | ⟨-, v, h⟩ | ⟨-, -, h⟩ | ⟨-, -, h⟩ | ⟨-, -, h⟩ <;>
      exact ⟨_, h, rfl, rfl, rfl, rfl, rfl, rfl⟩
  · exact ⟨_, hx, rfl, rfl, rfl, rfl, rfl, rfl⟩

/-- R123: the engine step writes no byte outside the command's write range. -/
theorem engineStep_mem {s t : State} (h : s.Inv) (he : engineStep s = .next t) {a : Nat}
    (ha : (s.eng.writeSpan s.cfg).has a = false) : t.mem.read a = s.mem.read a := by
  rcases engineStep_cases s with ⟨i, hi, hd, hx⟩ | ⟨-, hx⟩ <;> rw [hx] at he
  swap
  · cases he; rfl
  rcases exec_command_cases hi s with ⟨c, -, hx⟩ | ⟨-, v, hx⟩ | ⟨-, -, hx⟩ | ⟨-, -, hx⟩ | ⟨rfl, hf, hx⟩ <;>
    rw [hx] at he <;> cases he
  · rfl
  · rfl
  · rfl
  · rfl
  · show (s.mem.writeBytes _ _).read a = _
    rw [Memory.read_writeBytes h.memCanonical, frameBytes_length h.eng.rawLength hf.lengthFits, if_neg]
    rintro ⟨h1, h2⟩
    have hlt := admits_lt (hf.reachable (a - s.eng.dstAddr.toNat) (by omega))
    simp only [Engine.writeSpan, hd, spanOf, Span.has, Bool.and_eq_false_iff, decide_eq_false_iff_not] at ha
    generalize 2 ^ 32 = top at *
    omega

/-! ### Several engines -/

/-- Putting engine `k` in focus, changing it, and putting it back replaces engine `k` alone. -/
theorem State.swap_engines_set {s u : State} {k : Nat} (hk : k < s.engines.length) (ho : u.others = (s.swap k).others) :
    (u.swap k).engines = s.engines.set k u.eng := by
  cases k with
  | zero => simp_all [State.engines]
  | succ k =>
    simp only [State.engines, List.length_cons, Nat.add_lt_add_iff_right] at hk
    have h1 : s.others[k]? = some s.others[k] := List.getElem?_eq_getElem hk
    rw [State.swap_succ h1] at ho
    simp only at ho
    have h2 : u.others[k]? = some s.eng := by rw [ho]; simp [hk]
    rw [State.swap_succ h2]
    simp [State.engines, ho]

theorem State.onEngine_eq {s u : State} {k : Nat} {f : State → Host.Outcome State Fault Refusal}
    (h : f (s.swap k) = .next u) : s.onEngine k f = .next (u.swap k) := by
  simp [State.onEngine, h]

theorem State.engineAt_lt {s : State} {base k : Nat} (h : s.engineAt base = some k) : k < s.engines.length := by
  unfold State.engineAt at h
  split at h
  · split at h
    · cases h; assumption
    · simp at h
  · simp at h

/-! ### The host step -/

/-- What the register action `a` of the host does at the engine it names. -/
inductive RegisterAction (a : HostAction) (s t : State) : Prop where
  /-- A read, or a breach: the engines, memory and the parameters are as before. -/
  | keeps (h : t = { s with rdata := t.rdata, draws := t.draws, hostFault := t.hostFault, hostQueue := t.hostQueue })
  /-- A write. -/
  | writes (off : Nat) (v : Word) (h : exec (.regWrite off v) s = .next t)
  /-- The reset input. -/
  | resets (base : Nat) (ha : a = .reset base) (h : t = s.resetEngine)

theorem hostTransaction_cases (sel : BitVec 10) (v : Word) (s : State) :
    (∃ off, hostTransaction sel v s = exec (.regRead off) s) ∨
    (∃ off, hostTransaction sel v s = exec (.regWrite off v) s) ∨
    hostTransaction sel v s = .next (s.recordFault .badRegisterAccess) := by
  unfold hostTransaction decodeTransaction
  by_cases h1 : selectorOffset sel % 4 ≠ 0
  · rw [if_pos h1]; exact .inr (.inr rfl)
  · rw [if_neg h1]
    by_cases h2 : selectorWrites sel = true
    · rw [if_pos h2]; exact .inr (.inl ⟨_, rfl⟩)
    · rw [if_neg h2]; exact .inl ⟨_, rfl⟩

/-- R69: a selector made from an offset of the window runs the transaction at that offset, a misaligned one included. -/
theorem hostTransaction_selectorOf (write : Bool) {off : Nat} (h : off < 0x200) (v : Word) (s : State) :
    hostTransaction (selectorOf write off) v s = exec (if write then .regWrite off v else .regRead off) s := by
  have ho : selectorOffset (selectorOf write off) = off := by revert write off; decide +kernel
  have hw : selectorWrites (selectorOf write off) = write := by revert write off; decide +kernel
  unfold hostTransaction decodeTransaction
  rw [ho, hw]
  by_cases h4 : off % 4 ≠ 0
  · have hb : offsetAdmitted off = false := by simp [offsetAdmitted, h4]
    rw [if_pos h4]
    cases write <;> simp [exec, execRegRead, execRegWrite, hb]
  · rw [if_neg h4]
    cases write <;> rfl

/-- R103, R125: STATUS reads as its word in every state. -/
theorem exec_readStatus (s : State) : exec (.regRead 0x004) s = .next (s.returnData (statusWord s.eng)) := by
  simp [exec, execRegRead, offsetAdmitted, readableWhileBusy, regAt, regTable, readReg, List.lookup]

/-- R9: every host step that is enabled: a register action at one engine, or a buffer-memory access. -/
theorem hostStep_cases {a : HostAction} {s : State} (hen : actionEnabled s a = true) :
    (∃ k < s.engines.length, (∀ base, a = .reset base → s.engineAt base = some k) ∧
      ∃ u, RegisterAction a (s.swap k) u ∧ hostStep a s = .next (u.swap k)) ∨
    (∃ addr v, a = .memWrite addr v ∧ admits s.cfg addr = true ∧ hostStep a s = .next (hostMemWrite addr v s)) ∨
    (∃ addr, a = .memRead addr ∧ hostStep a s = .next (hostMemRead addr s)) := by
  cases a with
  | memWrite addr v => exact .inr (.inl ⟨addr, v, rfl, hen, rfl⟩)
  | memRead addr => exact .inr (.inr ⟨addr, rfl, rfl⟩)
  | transact base sel v =>
    obtain ⟨k, hb⟩ := Option.isSome_iff_exists.mp hen
    refine .inl ⟨k, State.engineAt_lt hb, by simp, ?_⟩
    simp only [hostStep, hb, Option.getD_some]
    rcases hostTransaction_cases sel v (s.swap k) with ⟨off, h⟩ | ⟨off, h⟩ | h
    · obtain ⟨u, h1, h2⟩ := regRead_cases off (s.swap k)
      exact ⟨u, .keeps (by rw [h2]), State.onEngine_eq (h.trans h1)⟩
    · obtain ⟨u, h1, -⟩ := regWrite_cases off v (s.swap k)
      exact ⟨u, .writes off v h1, State.onEngine_eq (h.trans h1)⟩
    · exact ⟨_, .keeps rfl, State.onEngine_eq h⟩
  | access base w width off v =>
    obtain ⟨k, hb⟩ := Option.isSome_iff_exists.mp hen
    refine .inl ⟨k, State.engineAt_lt hb, by simp, ?_⟩
    simp only [hostStep, hb, Option.getD_some]
    by_cases hw : width = 32
    · cases w
      · obtain ⟨u, h1, h2⟩ := regRead_cases off (s.swap k)
        exact ⟨u, .keeps (by rw [h2]), State.onEngine_eq (by simp [hostAccess, hw, h1])⟩
      · obtain ⟨u, h1, -⟩ := regWrite_cases off v (s.swap k)
        exact ⟨u, .writes off v h1, State.onEngine_eq (by simp [hostAccess, hw, h1])⟩
    · exact ⟨(s.swap k).recordFault .badRegisterAccess, .keeps rfl,
        State.onEngine_eq (by simp only [hostAccess, hw, if_false])⟩
  | wait base =>
    obtain ⟨k, hb⟩ := Option.isSome_iff_exists.mp hen
    refine .inl ⟨k, State.engineAt_lt hb, by simp, ?_⟩
    simp only [hostStep, hb, Option.getD_some]
    obtain ⟨u, h1, h2⟩ := regRead_cases 4 (s.swap k)
    refine ⟨_, .keeps ?_, State.onEngine_eq (by simp only [hostWait, h1]; rfl)⟩
    rw [h2]; split <;> rfl
  | reset base =>
    obtain ⟨k, hb⟩ := Option.isSome_iff_exists.mp hen
    refine .inl ⟨k, State.engineAt_lt hb, by rintro _ ⟨⟩; exact hb, ?_⟩
    simp only [hostStep, hb, Option.getD_some]
    exact ⟨_, .resets base rfl rfl, State.onEngine_eq rfl⟩

/-- R120, R124: what a host step leaves of an engine with a command pending: nothing changed, or its registers reset. -/
theorem hostStep_pending {a : HostAction} {s t : State} {k : Nat} {e : Engine} (hen : actionEnabled s a = true)
    (hx : hostStep a s = .next t) (he : s.engines[k]? = some e) (hb : e.statusBusy = true) :
    t.engines.length = s.engines.length ∧ t.turns = s.turns ∧ t.cfg = s.cfg ∧
    (t.engines[k]? = some e ∨
      t.engines[k]? = some (Engine.reset s.cfg) ∧ ∃ base, a = .reset base ∧ s.engineAt base = some k) := by
  rcases hostStep_cases hen with ⟨j, hj, hbase, u, hr, h⟩ | ⟨addr, v, -, -, h⟩ | ⟨addr, -, h⟩ <;> rw [h] at hx <;>
    cases hx
  · cases hr with
    | keeps h' =>
      have hu : u.swap j = { s with
          hostFault := u.hostFault, hostQueue := u.hostQueue, rdata := u.rdata, draws := u.draws } := by
        conv_lhs => rw [h']
        exact State.swap_keep ..
      rw [hu]
      exact ⟨rfl, rfl, rfl, .inl he⟩
    | writes off v h' =>
      obtain ⟨w, h1, hc⟩ := regWrite_cases off v (s.swap j)
      rw [h1] at h'
      cases h'
      have ho : u.others = (s.swap j).others ∧ u.turns = s.turns ∧ u.cfg = s.cfg := by
        rcases hc with ⟨r, rfl⟩ | ⟨-, r, rfl⟩ | ⟨-, rfl, -⟩ <;> simp
      have hse := State.swap_engines_set hj ho.1
      refine ⟨by simp [hse], by simp [ho], by simp [ho], .inl ?_⟩
      rw [hse]
      by_cases hjk : j = k
      · subst hjk
        have hje : (s.swap j).eng = e := State.swap_eng he
        rcases hc with ⟨r, rfl⟩ | ⟨hb', -⟩ | ⟨hb', -⟩
        · simp [State.recordFault, hje, hj]
        · simp [hje, hb] at hb'
        · simp [hje, hb] at hb'
      · rw [List.getElem?_set_ne hjk, he]
    | resets base ha h' =>
      have ho : u.others = (s.swap j).others ∧ u.turns = s.turns ∧ u.cfg = s.cfg := by simp [h']
      have hse := State.swap_engines_set hj ho.1
      refine ⟨by simp [hse], by simp [ho], by simp [ho], ?_⟩
      rw [hse]
      by_cases hjk : j = k
      · subst hjk
        exact .inr ⟨by simp [h', hj, State.resetEngine], base, ha, hbase base ha⟩
      · exact .inl (by rw [List.getElem?_set_ne hjk, he])
  · unfold hostMemWrite
    split <;> exact ⟨rfl, rfl, rfl, .inl he⟩
  · unfold hostMemRead
    split <;> exact ⟨rfl, rfl, rfl, .inl he⟩

/-- R105: a pending engine's step ends its command with DONE = 1, and leaves the host's side alone. -/
theorem onEngine_engineStep {s : State} {k : Nat} (ts : List Turn) (hk : engineEnabled s k = true) :
    ∃ t e, State.onEngine { s with turns := ts } k engineStep = .next t ∧ t.engines = s.engines.set k e ∧
      e.statusBusy = false ∧ e.statusDone = true ∧ t.turns = ts ∧ t.cfg = s.cfg ∧ t.hostFault = s.hostFault ∧
      t.hostQueue = s.hostQueue := by
  have hj : k < s.engines.length := by
    unfold engineEnabled at hk
    split at hk
    · simp at hk
    · rename_i he
      exact (List.getElem?_eq_some_iff.mp he).1
  obtain ⟨v, h1, hvb, ho, hc, hvf, hvq, hvt⟩ := engineStep_next (State.swap { s with turns := ts } k)
  have hd : v.eng.statusDone = true := by
    rcases engineStep_cases (State.swap { s with turns := ts } k) with ⟨i, hi, -, hx⟩ | ⟨-, hx⟩ <;> rw [hx] at h1
    · rcases exec_command_cases hi (State.swap { s with turns := ts } k) with
        ⟨c, -, h⟩ | ⟨-, w, h⟩ | ⟨-, -, h⟩ | ⟨-, -, h⟩ | ⟨-, -, h⟩ <;> rw [h] at h1 <;> cases h1 <;> rfl
    · cases h1
      rfl
  exact ⟨v.swap k, v.eng, State.onEngine_eq h1, State.swap_engines_set (s := { s with turns := ts }) hj ho, hvb, hd,
    by simpa using hvt, by simpa using hc, by simpa using hvf, by simpa using hvq⟩

/-! ### Whose step it is -/

theorem step_host {s : State} {ts : List Turn} {a : HostAction} {rest : List HostAction} (hc : s.cfg.wf = true)
    (hf : s.hostFault = none) (ht : s.turns = .host :: ts) (hq : s.hostQueue = a :: rest)
    (he : actionEnabled s a = true) : step s = hostStep a { s with turns := ts, hostQueue := rest } := by
  unfold step systemStep
  simp [hc, hf, ht, hq, pickTurn, turnEnabled, hostEnabled, he, takeTurn]

theorem step_engine {s : State} {ts : List Turn} {k : Nat} (hc : s.cfg.wf = true) (hf : s.hostFault = none)
    (ht : s.turns = .engine k :: ts) (he : engineEnabled s k = true) :
    step s = State.onEngine { s with turns := ts } k engineStep := by
  unfold step systemStep
  simp [hc, hf, ht, pickTurn, turnEnabled, he, takeTurn]

theorem engineEnabled_iff {s : State} {k : Nat} :
    engineEnabled s k = true ↔ ∃ e, s.engines[k]? = some e ∧ e.statusBusy = true := by
  unfold engineEnabled
  split <;> simp_all

theorem findIdx?_idle {l : List Engine} (hb : ∀ e ∈ l, e.statusBusy = false) :
    l.findIdx? (fun e => e.statusBusy) = none :=
  List.findIdx?_eq_none_iff.mpr hb

/-- No agent has a step where no command is pending and the host has none. -/
theorem pickTurn_none {s : State} (hq : hostEnabled s = false) (hb : ∀ e ∈ s.engines, e.statusBusy = false)
    (l : List Turn) : pickTurn s l = none := by
  induction l with
  | nil => simp [pickTurn, defaultTurn, findIdx?_idle hb, hq]
  | cons t ts ih =>
    have : turnEnabled s t = false := by
      cases t with
      | host => exact hq
      | engine k =>
        rw [turnEnabled, ← Bool.not_eq_true, engineEnabled_iff]
        rintro ⟨e, he, h⟩
        simp [hb e (List.mem_of_getElem? he)] at h
    simp [pickTurn, this, ih]

end Sys2Proof.Machine
end

