-- ==== Sys2Proof/Tests/Slice0.lean ====
section
/-! SUPPORT. The model's own tests. Expected values are the encodings of spec/30 and the vectors of
spec/95_test_vectors.md, named V<n>. `witness_<Name>` shows that the hypotheses of Obligations.<Name> can be met. -/

namespace Sys2Proof.Tests

open Sys2Proof.Machine

-- One proof at a time: a kernel evaluation in each of a hundred threads would fill the memory limit.
set_option Elab.async false

/-! ### Small states -/

/-- Reset, with `bs` in memory at `addr` and the source registers set. -/
def source (c : Config) (addr len : Word) (bs : List Byte) : State :=
  { State.resetWith c with
    mem := Memory.writeBytes [] addr.toNat bs
    eng := { Engine.reset c with srcAddr := addr, srcLen := len } }

/-- The frame of V1. -/
def frameV1 : List Byte := [0x00#8, 0x00#8, 0x05#8, 0x01#8, 0x02#8, 0x03#8, 0x04#8, 0x05#8, 0x37#8, 0xF0#8]

/-- The Battery payload of V14. -/
def batteryPayload : List Byte := [0x74#8, 0x0E#8, 0xE2#8, 0x04#8, 0x57#8]

/-- The Battery frame of V10 row P2 and V15. -/
def batteryFrame : List Byte := [0x01#8, 0x2A#8, 0x05#8] ++ batteryPayload ++ [0x09#8, 0xB6#8]

def v1 : State := source .reference 0x1000#32 10#32 frameV1

/-- `s` with other parameters of memory. -/
def onlyAt (s : State) (lo hi : Nat) : State := { s with cfg := { s.cfg with memAdmits := [⟨lo, hi⟩] } }

/-- The registers of V15. -/
def batteryRegs : Engine :=
  { Engine.reset .reference with
    fCategory := 0x01#8, fSequence := 0x2A#8, fLength := 5#8, fKind := .battery
    fVoltageMv := 3700#16, fCurrentMa := 1250#16, fPercent := 87#8, dstAddr := 0x2000#32, dstCap := 64#32 }

def v15 : State := { State.reset with eng := batteryRegs }

/-- FILL's operands of V14 row F1. -/
def fillState (cat len : Byte) (addr : Word) : State :=
  { State.reset with
    mem := Memory.writeBytes [] 0x1000 batteryPayload
    eng := { Engine.reset .reference with fCategory := cat, fLength := len, srcAddr := addr, fSequence := 0x55#8 } }

def pending (s : State) (w : Word) : State := { s with eng := s.eng.issue w }

/-- Two engines, with windows next to each other above buffer memory. -/
def twoEngines : State :=
  { State.resetWith { Config.reference with windowBases := [0x100000000, 0x100000200] } with
    others := [Engine.reset .reference] }

/-- Where the window of engine 0 is. -/
def base0 : Nat := 0x100000000

/-- Where the window of engine 1 of `twoEngines` is. -/
def base1 : Nat := 0x100000200

/-- `s` with one host action to run next. -/
def hostNext (s : State) (a : HostAction) : State := { s with turns := [.host], hostQueue := [a] }

/-- A field of the next state. -/
def after {α : Type} (o : Host.Outcome State Fault Refusal) (f : State → α) : Option α :=
  match o with
  | .next t => some (f t)
  | .fault _ => none
  | .refused _ => none

/-! ### Well-formedness and decoding -/

theorem test_misaligned_read_is_ill_formed : (Instr.regRead 0x002).wellFormed = false := by decide
theorem test_read_outside_window_is_ill_formed : (Instr.regRead 0x200).wellFormed = false := by decide
theorem test_misaligned_write_is_ill_formed : (Instr.regWrite 0x1FE 0#32).wellFormed = false := by decide
theorem test_write_outside_window_is_ill_formed : (Instr.regWrite 0x400 0#32).wellFormed = false := by decide
theorem test_last_word_is_well_formed : (Instr.regWrite 0x1FC 0#32).wellFormed = true := by decide

/-- R58, with [31:8] RESV and [7:0] OPCODE written out. -/
theorem test_decode_crc16 : decodeCommand (0x000000#24 ++ 0b00000001#8) = .ok .crc16 := by decide
theorem test_decode_parse : decodeCommand (0x000000#24 ++ 0b00000010#8) = .ok .parse := by decide
theorem test_decode_fill : decodeCommand (0x000000#24 ++ 0b00000011#8) = .ok .fill := by decide
theorem test_decode_serialize : decodeCommand (0x000000#24 ++ 0b00000100#8) = .ok .serialize := by decide

/-- R69, with [9] WE and [8:0] OFFSET written out: RD STATUS of V17 and WR SRC_LEN of V20. -/
theorem test_decode_regRead : decodeTransaction (0b0#1 ++ 0b000000100#9) 0#32 = .ok (.regRead 0x004) := by decide
theorem test_decode_regWrite : decodeTransaction (0b1#1 ++ 0b000010100#9) 9#32 = .ok (.regWrite 0x014 9#32) := by
  decide

/-- V19 K1, K2, K3. -/
theorem test_decode_illegal :
    [0x00000000#32, 0x00000101#32, 0x00000005#32].all
      (fun w => decide (decodeCommand w = .error (.illegalCommand w))) = true := by decide

theorem test_table_words :
    decodeTableWord 32 4 = some .serialize ∧ decodeTableWord 10 0x020 = some (.regRead 0x020) ∧
    decodeTableWord 16 0x214 = some (.regWrite 0x014 0#32) ∧ decodeTableWord 16 0x400 = none ∧
    decodeTableWord 32 5 = none := by decide

/-! ### The instructions, one step each -/

/-- V7. -/
theorem test_crcStep : crcStep 0xFFFF#16 0x41#8 = 0xB915#16 := by decide +kernel

/-- V8, the rows `00 00 00` and `00 00 05`. -/
theorem test_crc16_lists :
    crc16 [0#8, 0#8, 0#8] = 0xCC9C#16 ∧ crc16 [0#8, 0#8, 5#8] = 0x9C39#16 := by decide +kernel

/-- V9 Q5: the last address is reachable. -/
theorem test_crc16_last_address :
    after (exec .crc16 (source .reference 0xFFFFFFFF#32 1#32 [0x41#8])) (fun t => (statusWord t.eng, t.eng.crcResult))
      = some (0x20#32, 0xB915#16) := by decide +kernel

/-- V9 Q6: no wrap at the top of memory. -/
theorem test_crc16_no_wrap :
    after (exec .crc16 (source .reference 0xFFFFFFFE#32 3#32 [0x41#8])) (fun t => (statusWord t.eng, t.eng.crcResult))
      = some (0x26#32, 0x0000#16) := by decide +kernel

/-- V10 P2. -/
theorem test_parse_battery :
    after (exec .parse (source .reference 0x1000#32 10#32 batteryFrame))
      (fun t => ((statusWord t.eng, t.eng.fKind, t.eng.fSequence, t.eng.fVoltageMv),
        (t.eng.fCurrentMa, t.eng.fPercent, t.eng.fCrc, t.eng.fRaw.take 6)))
      = some ((0x20#32, .battery, 0x2A#8, 3700#16), (1250#16, 87#8, 0xB609#16, batteryPayload ++ [0#8])) := by
  decide +kernel

/-- V13 X2, the EXTENDED header; and V4's counterexample, a flipped length bit that still parses. -/
theorem test_parse_headers :
    after (exec .parse (source .ext250 0x1000#32 11#32
      ([0x01#8, 0x02#8, 0xFF#8, 0x05#8] ++ batteryPayload ++ [0xDA#8, 0x84#8])))
      (fun t => (statusWord t.eng, t.eng.fFlags, t.eng.fSequence, t.eng.fKind))
      = some (0x20#32, 2#8, 0xFF#8, .battery) ∧
    after (exec .parse (source .reference 0x1000#32 10#32
      [0x7E#8, 0x00#8, 0x04#8, 0x01#8, 0x02#8, 0x03#8, 0x0A#8, 0xEC#8, 0x22#8, 0x91#8]))
      (fun t => (statusWord t.eng, t.eng.fLength, t.eng.fCrc)) = some (0x20#32, 4#8, 0x22EC#16) := by
  decide +kernel

/-- V14 F1 and F2: one byte less falls back to RAW. -/
theorem test_fill_battery :
    after (exec .fill (fillState 0x01#8 5#8 0x1000#32)) (fun t => (statusWord t.eng, t.eng.fKind, t.eng.fVoltageMv))
      = some (0x20#32, .battery, 3700#16) := by decide +kernel
theorem test_fill_short :
    after (exec .fill (fillState 0x01#8 4#8 0x1000#32)) (fun t => (statusWord t.eng, t.eng.fKind, t.eng.fVoltageMv))
      = some (0x20#32, .raw, 0#16) := by decide +kernel

/-- V15. -/
theorem test_serialize_battery :
    after (exec .serialize v15) (fun t => (statusWord t.eng, t.eng.bytesWritten, t.mem))
      = some (0x20#32, 10#32, Memory.writeBytes [] 0x2000 batteryFrame) := by decide +kernel

/-- V16 S6: no byte is written when the last two do not exist. -/
theorem test_serialize_at_top :
    after (exec .serialize { v15 with eng := { batteryRegs with dstAddr := 0xFFFFFFF8#32 } })
      (fun t => (statusWord t.eng, t.eng.bytesWritten, t.mem)) = some (0x26#32, 0#32, []) := by decide +kernel

/-- V17, both configurations. -/
theorem test_read_config :
    after (exec (.regRead 0x008) State.reset) (·.rdata) = some 0x0100C830#32 ∧
    after (exec (.regRead 0x008) (State.resetWith .ext250)) (·.rdata) = some 0x0100FA41#32 := by decide +kernel

/-- V18 H1. -/
theorem test_write_length : after (exec (.regWrite 0x04C 0x123#32) State.reset) (·.eng.fLength) = some 0x23#8 := by
  decide +kernel

/-- V18 H9: two of the four bytes exist. -/
theorem test_write_raw_edge :
    after (exec (.regWrite 0x1F8 0x44332211#32) (State.resetWith .ext250))
      (fun t => (t.eng.fRaw.length, t.eng.fRaw.drop 248)) = some (250, [0x11#8, 0x22#8]) := by decide +kernel

/-! ### Steps of the system -/

/-- V19 K1: an illegal word is latched, and completes with IllegalCommand in the step after. -/
theorem test_illegal_word_step :
    after (step { State.reset with eng := (Engine.reset .reference).issue 0x101#32 }) (fun t => statusWord t.eng)
      = some 0x25#32 := by decide +kernel

/-- V19 K5. -/
theorem test_write_while_busy :
    after (step (hostNext (pending State.reset 1#32) (.transact base0 (selectorOf true 0x010) 5#32))) (·.hostFault)
      = some (some .registerWriteWhileBusy) := by decide +kernel

/-- V19 K6 and K7. -/
theorem test_host_write_to_pending_buffer :
    after (step (hostNext (pending v1 2#32) (.memWrite 0x1004 0#8))) (·.hostFault) = some (some .bufferAccessWhileBusy) ∧
    after (step (hostNext (pending v1 2#32) (.memRead 0x1004))) (fun t => (t.hostFault, t.hostByte))
      = some (none, 0x02#8) := by decide +kernel

/-- V19 K8: a 16-bit read, and a read at 0x200. -/
theorem test_bad_accesses :
    after (step (hostNext State.reset (.access base0 false 16 0x004 0#32))) (·.hostFault) = some (some .badRegisterAccess) ∧
    after (step (hostNext State.reset (.access base0 false 32 0x200 0#32))) (·.hostFault) = some (some .badRegisterAccess) := by
  decide +kernel

/-- R70: the expansion of `WRRAW 4: AA BB CC DD EE`, with the byte past the list's end written 0. -/
theorem test_wrraw :
    (HostLine.wrraw 4 [0xAA#8, 0xBB#8, 0xCC#8, 0xDD#8, 0xEE#8]).expand base0
      = [.transact base0 0b1100000100#10 0xDDCCBBAA#32, .transact base0 0b1100001000#10 0x000000EE#32] := by decide

/-- R70: `WRRAW 252` of five bytes touches the word after the window's last, which is R102's bad offset, not CMD. -/
theorem test_wrraw_past_window :
    after (step { State.reset with hostQueue :=
      ((HostLine.wrraw 252 [0xAA#8, 0xBB#8, 0xCC#8, 0xDD#8, 0x01#8]).expand base0).drop 1 })
      (fun t => (t.hostFault, t.eng.statusBusy)) = some (some .badRegisterAccess, false) := by decide +kernel

/-- R70: `RD CONFIG == 0x0100C830` (V17) runs as the read, and what it states holds. -/
theorem test_rd_states_value :
    after (step (State.reset.withProgram [.rdEq 0x008 0x0100C830#32])) (fun t =>
      ((HostLine.rdEq 0x008 0x0100C830#32).holds t, (HostLine.rdEq 0x008 0#32).holds t)) = some (true, false) := by
  decide +kernel

/-- R70: the notation's `CMD` has no line for a host transaction, and `WRRAW` none at a position that is no multiple of 4. -/
theorem test_ill_formed_lines :
    (HostLine.cmd (.regRead 0)).wellFormed = false ∧ (HostLine.wrraw 2 []).wellFormed = false ∧
    (HostLine.cmd .parse).wellFormed = true ∧ (HostLine.wrraw 4 []).wellFormed = true := by decide

/-- `withFetchWord` makes the next step run the instruction: CRC16 with SRC_LEN = 0 (V9 Q1), and RD CONFIG (V17). -/
theorem test_fetch_word_command :
    after (step (State.reset.withFetchWord 32 1)) (fun t => (statusWord t.eng, t.eng.crcResult))
      = some (0x20#32, 0xFFFF#16) := by decide +kernel
theorem test_fetch_word_transaction :
    after (step (State.reset.withFetchWord 16 0x008)) (·.rdata) = some 0x0100C830#32 := by decide +kernel

/-- R120: reset meets the invariant and is final. -/
theorem test_reset_memory_is_canonical : State.reset.mem.wf = true := by decide

/-! ### Witnesses: the hypotheses of each statement can be met, clause by clause -/

/-- A concrete state meets the invariant when each of its parts, all decidable, holds. -/
theorem inv_of_parts {s : State} (parameters : s.cfg.wf = true) (windows : s.cfg.windowBases.length = s.engines.length)
    (canonical : s.mem.wf = true) (exist : ∀ p ∈ s.mem, admits s.cfg p.1 = true)
    (engines : ∀ e ∈ s.engines, e.fRaw.length = s.cfg.maxPayload.size ∧ e.statusCode.toNat ≤ 6 ∧
      ¬ (e.statusBusy = true ∧ e.statusDone = true) ∧ (e.statusDone = false → e.statusCode = 0#4) ∧
      (s.cfg.hdrProfile = .minimal → e.fFlags = 0#8))
    (apart : s.engines.Pairwise fun e f => pendingConflict s.cfg e f = false) : s.Inv :=
  ⟨parameters, windows, canonical, exist,
    fun e he => let h := engines e he; ⟨h.1, h.2.1, h.2.2.1, h.2.2.2.1, h.2.2.2.2⟩, apart⟩

/-- The frame at SRC_ADDR, with every part of `SourceFits` decided. -/
theorem fits_of_parts {s : State} (h : s.eng.srcAddr ≠ 0#32 ∧ minFrameSize s.cfg ≤ s.eng.srcLen.toNat ∧
    admits s.cfg (s.eng.srcAddr.toNat + offLength s.cfg) = true ∧ s.srcLength.toNat ≤ s.cfg.maxPayload.size ∧
    frameSize s.cfg s.srcLength.toNat ≤ s.eng.srcLen.toNat) : s.SourceFits :=
  ⟨h.1, h.2.1, h.2.2.1, h.2.2.2.1, h.2.2.2.2⟩

theorem valid_of_parts {s : State} (h : s.SourceFits)
    (hr : ∀ i < frameSize s.cfg s.srcLength.toNat, admits s.cfg (s.eng.srcAddr.toNat + i) = true)
    (hc : s.srcComputedCrc s.srcLength.toNat = s.srcReceivedCrc s.srcLength.toNat) : s.SourceValid :=
  { h with frameReachable := hr, checksumMatches := hc }

theorem v1_valid : v1.SourceValid :=
  valid_of_parts (fits_of_parts (by decide +kernel)) (by decide +kernel) (by decide +kernel)

/-- V13 X3, the shortest EXTENDED frame. -/
def x3 : State := source .ext250 0x1000#32 6#32 [0x33#8, 0x00#8, 0x00#8, 0x00#8, 0xF5#8, 0x33#8]

theorem x3_valid : x3.SourceValid :=
  valid_of_parts (fits_of_parts (by decide +kernel)) (by decide +kernel) (by decide +kernel)

theorem v1_inv : v1.Inv :=
  inv_of_parts (by decide +kernel) (by decide +kernel) (by decide +kernel) (by decide +kernel) (by decide +kernel) (by decide +kernel)

theorem v15_inv : v15.Inv :=
  inv_of_parts (by decide +kernel) (by decide +kernel) (by decide +kernel) (by decide +kernel) (by decide +kernel) (by decide +kernel)

/-- V16 S10: a Telemetry frame. -/
def s10 : State :=
  { State.reset with eng := { batteryRegs with
      fCategory := 0x00#8, fSequence := 0x07#8, fLength := 12#8, fKind := .telemetry
      fRoll := 0x3F800000#32, fPitch := 0xC0200000#32, fYaw := 0x3F000000#32 } }

theorem s10_inv : s10.Inv :=
  inv_of_parts (by decide +kernel) (by decide +kernel) (by decide +kernel) (by decide +kernel) (by decide +kernel) (by decide +kernel)

/-- V16 S18: the EXTENDED reset frame. -/
def s18 : State :=
  { State.resetWith .ext250 with eng :=
    { Engine.reset .ext250 with fCategory := 0x33#8, dstAddr := 0x2000#32, dstCap := 6#32 } }

/-- PARSE pending on engine 1 on 0x1000 to 0x1009, and engine 0 ready to SERIALIZE ten bytes to `d`. -/
def parsePending (d : Word) : State :=
  { twoEngines with
    eng := { batteryRegs with dstAddr := d }
    others := [Engine.issue { Engine.reset .reference with srcAddr := 0x1000#32, srcLen := 10#32 } 2#32] }

theorem witness_DecodeOfEncode : (Instr.regWrite 0x1FC 0xFFFFFFFF#32).wellFormed = true ∧ Instr.crc16.wellFormed = true := by
  decide +kernel

theorem witness_EncodeOfDecode :
    decode (.transaction 0b0111111100#10 7#32) = .ok (.regRead 0x1FC) ∧ decode (.command 4#32) = .ok .serialize := by decide +kernel

theorem witness_IllegalWordsAreLatchedAndRefused :
    (0x00000101#32 ≠ 0x00000001#32 ∧ 0x00000101#32 ≠ 0x00000002#32 ∧ 0x00000101#32 ≠ 0x00000003#32 ∧
      0x00000101#32 ≠ 0x00000004#32) ∧
    State.reset.eng.statusBusy = false ∧ (pending State.reset 0x00000101#32).eng.cmdLatch = 0x00000101#32 := by decide +kernel

theorem witness_CrcDetectsSingleBitChange : 0 < 8 ∧ 7 < 8 := by decide +kernel

theorem witness_CrcDetectsSingleByteChange : 0x00#8 ≠ 0xFF#8 := by decide +kernel

theorem witness_Crc16Result :
    State.reset.eng.srcLen = 0#32 ∧
    (∃ s : State, s.eng.srcLen ≠ 0#32 ∧ s.eng.srcAddr = 0#32) ∧
    (∃ s : State, s.eng.srcLen ≠ 0#32 ∧ s.eng.srcAddr ≠ 0#32 ∧ ∃ i < s.eng.srcLen.toNat, ¬ s.srcReachable i) ∧
    (∃ s : State, s.eng.srcLen ≠ 0#32 ∧ s.eng.srcAddr ≠ 0#32 ∧ ∀ i < s.eng.srcLen.toNat, s.srcReachable i) :=
  ⟨by decide +kernel, ⟨source .reference 0#32 1#32 [], by decide +kernel, by decide +kernel⟩,
    ⟨source .reference 0xFFFFFFFE#32 3#32 [], by decide +kernel, by decide +kernel, 2, by decide +kernel, by unfold State.srcReachable; decide +kernel⟩,
    ⟨source .reference 0xFFFFFFFF#32 1#32 [0x41#8], by decide +kernel, by decide +kernel, by unfold State.srcReachable; decide +kernel⟩⟩

theorem witness_ParseNullPointer : (source .reference 0#32 10#32 []).eng.srcAddr = 0#32 := by decide +kernel

theorem witness_ParseShortBuffer :
    (∃ s : State, s.eng.srcAddr ≠ 0#32 ∧ s.cfg.hdrProfile = .minimal ∧ s.eng.srcLen.toNat < 5) ∧
    (∃ s : State, s.eng.srcAddr ≠ 0#32 ∧ s.cfg.hdrProfile = .extended ∧ s.eng.srcLen.toNat < 6) :=
  ⟨⟨source .reference 1#32 4#32 [], by decide +kernel⟩, ⟨source .ext250 1#32 5#32 [], by decide +kernel⟩⟩

/-- V12 E8 and a length of MAX_PAYLOAD_SIZE + 1. -/
theorem witness_ParseDeclaredLength :
    (∃ s : State, s.eng.srcAddr ≠ 0#32 ∧ minFrameSize s.cfg ≤ s.eng.srcLen.toNat ∧ ¬ s.srcReachable (offLength s.cfg)) ∧
    (∃ s : State, s.eng.srcAddr ≠ 0#32 ∧ minFrameSize s.cfg ≤ s.eng.srcLen.toNat ∧ s.srcReachable (offLength s.cfg) ∧
      s.cfg.maxPayload.size < s.srcLength.toNat) :=
  ⟨⟨source .reference 0xFFFFFFFE#32 10#32 [], by unfold State.srcReachable; decide +kernel⟩,
    ⟨source .reference 0x1000#32 5#32 [0x09#8, 0x00#8, 0xC9#8], by unfold State.srcReachable; decide +kernel⟩⟩

theorem witness_ParseTruncatedFrame :
    ∃ s : State, s.eng.srcAddr ≠ 0#32 ∧ minFrameSize s.cfg ≤ s.eng.srcLen.toNat ∧ s.srcReachable (offLength s.cfg) ∧
      s.srcLength.toNat ≤ s.cfg.maxPayload.size ∧ s.eng.srcLen.toNat < headerSize s.cfg + s.srcLength.toNat + 2 :=
  ⟨source .reference 0x1000#32 9#32 frameV1, by unfold State.srcReachable; decide +kernel⟩

/-- V12 E9 and E7. -/
theorem witness_ParseIntegrity :
    (∃ s : State, s.SourceFits ∧ ∃ i < frameSize s.cfg s.srcLength.toNat, ¬ s.srcReachable i) ∧
    (∃ s : State, s.SourceFits ∧ (∀ i < frameSize s.cfg s.srcLength.toNat, s.srcReachable i) ∧
      s.srcComputedCrc s.srcLength.toNat ≠ s.srcReceivedCrc s.srcLength.toNat) :=
  ⟨⟨onlyAt v1 0x1000 0x1007, fits_of_parts (by decide +kernel), 8, by decide +kernel,
      by unfold State.srcReachable; decide +kernel⟩,
    ⟨source .reference 0x1000#32 10#32 (frameV1.take 8 ++ [0xF0#8, 0x37#8]), fits_of_parts (by decide +kernel),
      by unfold State.srcReachable; decide +kernel, by decide +kernel⟩⟩

theorem witness_ParseValidFrame :
    v1.SourceValid ∧ v1.cfg.hdrProfile = .minimal ∧ x3.SourceValid ∧ x3.cfg.hdrProfile = .extended :=
  ⟨v1_valid, rfl, x3_valid, rfl⟩

theorem witness_ParseOkExactlyWhenValid : ∃ t, exec .parse v1 = .next t := ⟨_, rfl⟩

/-- The V1 frame at 0x3000 with two bytes after it (V10 P8), and an earlier frame's field in the registers. -/
theorem witness_ParseDependsOnFrameBytesOnly :
    ∃ r : State, v1.SourceValid ∧ r.SourceFits ∧ r.cfg = v1.cfg ∧ r.srcLength = v1.srcLength ∧
      (∀ i < frameSize v1.cfg v1.srcLength.toNat, r.srcReachable i ∧ r.srcByte i = v1.srcByte i) ∧
      ∃ t, exec .parse v1 = .next t :=
  ⟨source .reference 0x3000#32 12#32 (frameV1 ++ [0xEE#8, 0xEE#8]), v1_valid, fits_of_parts (by decide +kernel), rfl,
    by decide +kernel, by unfold State.srcReachable; decide +kernel, _, rfl⟩

theorem witness_ParseIgnoresBytesAfterFrame :
    v1.SourceValid ∧ v1.mem.wf = true ∧ v1.eng.srcAddr.toNat + frameSize v1.cfg v1.srcLength.toNat ≤ 0x100A ∧
      0x0FFF < v1.eng.srcAddr.toNat ∧ frameSize v1.cfg v1.srcLength.toNat ≤ (10#32 : Word).toNat ∧
      ∃ t, exec .parse v1 = .next t :=
  ⟨v1_valid, by decide +kernel, by decide +kernel, by decide +kernel, by decide +kernel, _, rfl⟩

theorem witness_ParseDetectsBitFlip :
    v1.SourceValid ∧ v1.mem.wf = true ∧ 9 < frameSize v1.cfg v1.srcLength.toNat ∧ 9 ≠ offLength v1.cfg ∧ 7 < 8 :=
  ⟨v1_valid, by decide +kernel, by decide +kernel, by decide +kernel, by decide +kernel⟩

/-- V14 F8, F6, F11, F1 and F5. -/
theorem witness_FillResult :
    (fillState 1#8 201#8 0#32).cfg.maxPayload.size < (fillState 1#8 201#8 0#32).eng.fLength.toNat ∧
    (let s := fillState 1#8 3#8 0#32
     s.eng.fLength.toNat ≤ s.cfg.maxPayload.size ∧ 0 < s.eng.fLength.toNat ∧ s.eng.srcAddr = 0#32) ∧
    (let s := fillState 1#8 5#8 0xFFFFFFFD#32
     s.eng.fLength.toNat ≤ s.cfg.maxPayload.size ∧ s.eng.srcAddr ≠ 0#32 ∧ ∃ i < s.eng.fLength.toNat, ¬ s.srcReachable i) ∧
    (∀ s ∈ [fillState 1#8 5#8 0x1000#32, fillState 0#8 0#8 0#32],
      s.eng.fLength.toNat ≤ s.cfg.maxPayload.size ∧ (0 < s.eng.fLength.toNat → s.eng.srcAddr ≠ 0#32) ∧
      ∀ i < s.eng.fLength.toNat, s.srcReachable i) := by
  unfold State.srcReachable; decide +kernel

theorem witness_ClassifyByCategoryAndLength : Config.reference.wf = true ∧ Config.ext250.wf = true := by decide +kernel

/-- V14 F2 and F4, V6. -/
theorem witness_ShortPayloadFallsBackToRaw :
    (∃ t, exec .fill (fillState 1#8 4#8 0x1000#32) = .next t ∧ t.eng.statusCode = 0#4 ∧
      t.eng.fCategory = Config.reference.catBattery ∧ t.eng.fLength.toNat < 5) ∧
    (∃ t, exec .fill (fillState 0#8 11#8 0x1000#32) = .next t ∧ t.eng.statusCode = 0#4 ∧
      t.eng.fCategory = Config.reference.catTelemetry ∧ t.eng.fLength.toNat < 12) ∧
    (∃ t, exec .parse v1 = .next t ∧ t.eng.statusCode = 0#4 ∧
      t.eng.fCategory = Config.reference.catTelemetry ∧ t.eng.fLength.toNat < 12) :=
  ⟨⟨_, rfl, by decide +kernel⟩, ⟨_, rfl, by decide +kernel⟩, ⟨_, rfl, by decide +kernel⟩⟩

theorem witness_ParseAndFillLeaveConsistentFrames :
    (∃ t, exec .parse v1 = .next t ∧ t.eng.statusCode = 0#4) ∧
    (∃ t, exec .fill (fillState 1#8 5#8 0x1000#32) = .next t ∧ t.eng.statusCode = 0#4) :=
  ⟨⟨_, rfl, by decide +kernel⟩, ⟨_, rfl, by decide +kernel⟩⟩

/-- V16 S5, S4, S2 and S6. -/
theorem witness_SerializeChecks :
    (∃ s : State, s.eng.dstAddr = 0#32) ∧
    (∃ s : State, s.eng.dstAddr ≠ 0#32 ∧ s.cfg.maxPayload.size < s.eng.fLength.toNat) ∧
    (∃ s : State, s.eng.dstAddr ≠ 0#32 ∧ s.eng.fLength.toNat ≤ s.cfg.maxPayload.size ∧
      s.eng.dstCap.toNat < headerSize s.cfg + s.eng.fLength.toNat + 2) ∧
    (∃ s : State, s.eng.dstAddr ≠ 0#32 ∧ s.eng.fLength.toNat ≤ s.cfg.maxPayload.size ∧
      headerSize s.cfg + s.eng.fLength.toNat + 2 ≤ s.eng.dstCap.toNat ∧
      ∃ i < headerSize s.cfg + s.eng.fLength.toNat + 2, ¬ s.dstReachable i) :=
  ⟨⟨State.reset, by decide +kernel⟩, ⟨{ v15 with eng := { batteryRegs with fLength := 201#8 } }, by decide +kernel⟩,
    ⟨{ v15 with eng := { batteryRegs with dstCap := 9#32 } }, by decide +kernel⟩,
    ⟨{ v15 with eng := { batteryRegs with dstAddr := 0xFFFFFFF8#32 } }, by unfold State.dstReachable; decide +kernel⟩⟩

theorem v15_fits : v15.DestinationFits :=
  ⟨by decide +kernel, by decide +kernel, by decide +kernel, by unfold State.dstReachable; decide +kernel⟩

/-- DST_CAP exactly the frame's size. -/
theorem s18_fits : s18.DestinationFits :=
  ⟨by decide +kernel, by decide +kernel, by decide +kernel, by unfold State.dstReachable; decide +kernel⟩

theorem witness_SerializeWritesFrame :
    (v15.DestinationFits ∧ v15.mem.wf = true ∧ v15.eng.fRaw.length = v15.cfg.maxPayload.size ∧
      v15.cfg.hdrProfile = .minimal) ∧
    (s18.DestinationFits ∧ s18.mem.wf = true ∧ s18.eng.fRaw.length = s18.cfg.maxPayload.size ∧
      s18.cfg.hdrProfile = .extended) :=
  ⟨⟨v15_fits, by decide +kernel, by decide +kernel, rfl⟩, ⟨s18_fits, by decide +kernel, by decide +kernel, rfl⟩⟩

theorem witness_SerializedFramesAreValid :
    v15.Inv ∧ (∃ t, exec .serialize v15 = .next t ∧ t.eng.statusCode = 0#4) ∧
      frameSize v15.cfg v15.eng.fLength.toNat ≤ (10#32 : Word).toNat :=
  ⟨v15_inv, ⟨_, rfl, by decide +kernel⟩, by decide +kernel⟩

theorem witness_SerializeParseRoundTrip :
    (v15.Inv ∧ v15.eng.Consistent v15.cfg ∧ (∃ t, exec .serialize v15 = .next t ∧ t.eng.statusCode = 0#4) ∧
      frameSize v15.cfg v15.eng.fLength.toNat ≤ (10#32 : Word).toNat ∧ v15.eng.fKind = .battery) ∧
    (s10.Inv ∧ s10.eng.Consistent s10.cfg ∧ (∃ t, exec .serialize s10 = .next t ∧ t.eng.statusCode = 0#4) ∧
      frameSize s10.cfg s10.eng.fLength.toNat ≤ (17#32 : Word).toNat ∧ s10.eng.fKind = .telemetry) :=
  ⟨⟨v15_inv, ⟨by decide +kernel, by decide +kernel⟩, ⟨_, rfl, by decide +kernel⟩, by decide +kernel, rfl⟩,
    ⟨s10_inv, ⟨by decide +kernel, by decide +kernel⟩, ⟨_, rfl, by decide +kernel⟩, by decide +kernel, rfl⟩⟩

theorem witness_FailedCommandChangesOnlyStatus :
    IsCommand .serialize ∧ ∃ t, exec .serialize State.reset = .next t ∧ t.eng.statusCode ≠ 0#4 :=
  ⟨.inr (.inr (.inr rfl)), _, rfl, by decide +kernel⟩

theorem witness_CommandFrame : IsCommand .crc16 ∧ IsCommand .parse ∧ IsCommand .fill ∧ IsCommand .serialize :=
  ⟨.inl rfl, .inr (.inl rfl), .inr (.inr (.inl rfl)), .inr (.inr (.inr rfl))⟩

theorem witness_EngineNeverTouchesNull :
    IsCommand .parse ∧ v1.mem.wf = true ∧ ∀ a, a ≠ 0 → (v1.mem.write 0 7#8).read a = v1.mem.read a :=
  ⟨.inr (.inl rfl), by decide +kernel, fun _ ha => Memory.read_write_other (by decide +kernel) _ ha⟩

theorem witness_BadRegisterAccessFaults : 0x1FE % 4 ≠ 0 ∧ 0x200 ≤ 0x200 ∧ 0x200 % 4 = 0 ∧ 16 ≠ 32 ∧
    (0b1000000010#10).extractLsb' 0 2 ≠ 0#2 ∧ (0b0111111101#10).extractLsb' 0 2 ≠ 0#2 := by decide +kernel

theorem witness_RegisterReadValues :
    (State.reset.eng.statusBusy = false ∧ State.reset.cfg.hdrProfile = .minimal ∧ State.reset.eng.fKind = .raw) ∧
    (s18.eng.statusBusy = false ∧ s18.cfg.hdrProfile = .extended) ∧
    (s10.eng.statusBusy = false ∧ s10.eng.fKind = .telemetry) ∧
    (v15.eng.statusBusy = false ∧ v15.eng.fKind = .battery) := by decide +kernel

theorem witness_ReadsWhileBusyAreFree :
    (pending State.reset 1#32).eng.statusBusy = true ∧
    ∀ off ∈ [0x000, 0x00C, 0x010, 0x1FC], off % 4 = 0 ∧ off < 0x200 ∧ off ≠ 0x004 ∧ off ≠ 0x008 := by decide +kernel

theorem witness_RegisterReadFrame : 0x1FC % 4 = 0 ∧ 0x1FC < 0x200 ∧ State.reset.eng.statusBusy = false := by decide +kernel

theorem witness_RegisterWriteWhileBusyFaults :
    (pending State.reset 1#32).eng.statusBusy = true ∧ 0x1FC % 4 = 0 ∧ 0x1FC < 0x200 := by decide +kernel

theorem witness_RegisterWriteEffects :
    (State.reset.eng.statusBusy = false ∧ State.reset.cfg.hdrProfile = .minimal) ∧
    (s18.eng.statusBusy = false ∧ s18.cfg.hdrProfile = .extended) ∧
    (4#32 : Word).extractLsb' 0 2 = 0#2 ∧ (1#32 : Word).extractLsb' 0 2 = 1#2 ∧ (2#32 : Word).extractLsb' 0 2 = 2#2 ∧
    (7#32 : Word).extractLsb' 0 2 = 3#2 := by decide +kernel

theorem witness_ReservedAndReadOnlyOffsets :
    State.reset.eng.statusBusy = false ∧
    ∀ off ∈ [0x00C, 0x028, 0x03C, 0x070, 0x0FC], off % 4 = 0 ∧
      (off = 0x00C ∨ 0x028 ≤ off ∧ off ≤ 0x03C ∨ 0x070 ≤ off ∧ off ≤ 0x0FC) := by decide +kernel

theorem witness_RawWindowPacking :
    State.reset.eng.statusBusy = false ∧ State.reset.eng.fRaw.length = State.reset.cfg.maxPayload.size ∧ 0 < 64 ∧ 63 < 64 := by
  decide +kernel

/-- SERIALIZE pending on engine 1 on 0x1000 to 0x1009, and engine 0 with SRC_ADDR and DST_ADDR at `a`. -/
def serializePending (a : Word) : State :=
  { twoEngines with
    eng := { batteryRegs with srcAddr := a, srcLen := 10#32, dstAddr := a }
    others := [Engine.issue { batteryRegs with dstAddr := 0x1000#32 } 4#32] }

/-- V19's hazard between engines, for each pair of ranges: the last byte of the pending buffer is not free, the first byte
past it is. -/
theorem witness_CommandIssue :
    (∀ s ∈ [parsePending 0x1009#32, serializePending 0x1009#32, parsePending 0x100A#32, serializePending 0x100A#32],
      s.eng.statusBusy = false) ∧
    (∃ f ∈ (parsePending 0x1009#32).others, f.statusBusy = true ∧
      Engine.WritesAt .reference { (parsePending 0x1009#32).eng with cmdLatch := 4#32 } 0x1009 ∧ f.ReadsAt 0x1009) ∧
    (∃ f ∈ (serializePending 0x1009#32).others, f.statusBusy = true ∧
      Engine.WritesAt .reference { (serializePending 0x1009#32).eng with cmdLatch := 4#32 } 0x1009 ∧
      f.WritesAt .reference 0x1009) ∧
    (∃ f ∈ (serializePending 0x1009#32).others, f.statusBusy = true ∧
      Engine.ReadsAt { (serializePending 0x1009#32).eng with cmdLatch := 2#32 } 0x1009 ∧ f.WritesAt .reference 0x1009) ∧
    (∀ p ∈ [(parsePending 0x100A#32, 4#32), (serializePending 0x100A#32, 4#32), (serializePending 0x100A#32, 2#32)],
      ¬ ∃ f ∈ p.1.others, f.statusBusy = true ∧ ∃ a,
        Engine.WritesAt p.1.cfg { p.1.eng with cmdLatch := p.2 } a ∧ f.ReadsAt a ∨
        Engine.WritesAt p.1.cfg { p.1.eng with cmdLatch := p.2 } a ∧ f.WritesAt p.1.cfg a ∨
        Engine.ReadsAt { p.1.eng with cmdLatch := p.2 } a ∧ f.WritesAt p.1.cfg a) := by
  refine ⟨by decide +kernel, ?_, ?_, ?_, ?_⟩
  · exact ⟨_, .head _, by unfold Engine.WritesAt Engine.ReadsAt; decide +kernel⟩
  · exact ⟨_, .head _, by unfold Engine.WritesAt; decide +kernel⟩
  · exact ⟨_, .head _, by unfold Engine.WritesAt Engine.ReadsAt; decide +kernel⟩
  · rintro p hp ⟨f, hf, -, hc⟩
    have hr := rangesConflict_iff.mpr hc
    clear hc
    revert p f
    decide +kernel

theorem witness_SerializeIntoPendingParseFaults :
    ∀ s ∈ [parsePending 0x1009#32, parsePending 0x100A#32],
      s.hostFault = none ∧ s.eng.statusBusy = false ∧
      ∃ f ∈ s.others, s.others.length = 1 ∧ f.statusBusy = true ∧ f.cmdLatch = 0x00000002#32 := by decide +kernel

theorem witness_StepRunsDecodedInstruction :
    (let s := { pending v1 2#32 with turns := [.engine 0] }
     s.cfg.wf = true ∧ s.hostFault = none ∧ s.turns = .engine 0 :: [] ∧ s.engines[0]? = some s.eng ∧
       s.eng.statusBusy = true ∧ decodeCommand s.eng.cmdLatch = .ok .parse) ∧
    (let s := hostNext v1 (.transact base0 0b0000000100#10 0#32)
     s.cfg.wf = true ∧ s.hostFault = none ∧ s.turns = .host :: [] ∧
       s.hostQueue = .transact base0 0b0000000100#10 0#32 :: [] ∧ s.engineAt base0 = some 0 ∧
       decodeTransaction 0b0000000100#10 0#32 = .ok (.regRead 0x004)) := by decide +kernel

theorem witness_HostFaultIsSticky :
    (State.reset.recordFault .badRegisterAccess).cfg.wf = true ∧
    (State.reset.recordFault .badRegisterAccess).hostFault = some .badRegisterAccess := by decide +kernel

theorem witness_FinalStateIsIdle : State.reset.cfg.wf = true ∧ State.reset.Final :=
  ⟨by decide +kernel, rfl, by decide +kernel, rfl⟩

theorem witness_PendingRanges :
    (pending State.reset 1#32).eng.cmdLatch = 1#32 ∧ (pending State.reset 2#32).eng.cmdLatch = 2#32 ∧
    (pending State.reset 3#32).eng.cmdLatch = 3#32 ∧ (pending State.reset 4#32).eng.cmdLatch = 4#32 ∧
    (let w := (pending State.reset 0#32).eng.cmdLatch; w ≠ 1#32 ∧ w ≠ 2#32 ∧ w ≠ 3#32 ∧ w ≠ 4#32) := by decide +kernel

/-- K6 and K7, and SERIALIZE's frame at 0x2000 to 0x2009: its last byte and the first byte past it. -/
theorem witness_HostBufferAccess :
    (∀ a ∈ [HostAction.memWrite 0x1009 0#8, HostAction.memWrite 0x100A 0#8, HostAction.memRead 0x1009],
      let s := hostNext (pending v1 2#32) a
      s.cfg.wf = true ∧ s.hostFault = none ∧ s.turns = .host :: [] ∧ s.hostQueue = a :: []) ∧
    (∀ a ∈ [HostAction.memRead 0x2009, HostAction.memRead 0x200A], let s := hostNext (pending v15 4#32) a
      s.cfg.wf = true ∧ s.hostFault = none ∧ s.turns = .host :: [] ∧ s.hostQueue = a :: []) ∧
    (∀ a ∈ [0x1009, 0x100A, 0x2009, 0x200A], admits v1.cfg a = true) ∧
    ((pending v1 2#32).eng.readSpan.has 0x1009 = true ∧ (pending v1 2#32).eng.readSpan.has 0x100A = false ∧
      ((pending v1 2#32).eng.writeSpan v1.cfg).has 0x1009 = false) ∧
    ((pending v15 4#32).eng.writeSpan v15.cfg).has 0x2009 = true ∧
    ((pending v15 4#32).eng.writeSpan v15.cfg).has 0x200A = false := by decide +kernel

theorem witness_HostMemoryAccess :
    (State.reset.cfg.wf = true ∧ State.reset.hostFault = none ∧ (∀ e ∈ State.reset.engines, e.statusBusy = false) ∧
      State.reset.turns = [] ∧ State.reset.mem.wf = true) ∧
    admits State.reset.cfg 1 = true ∧ admits State.reset.cfg 0xFFFFFFFF = true ∧
    admits State.reset.cfg 0 = false ∧ admits State.reset.cfg 0x100000000 = false := by decide +kernel

/-- Both engines, idle and pending. -/
theorem witness_WaitPollsStatus :
    ∀ p ∈ [(v1, base0, 0), (pending v1 2#32, base0, 0), (twoEngines, base1, 1), (parsePending 0x100A#32, base1, 1)],
      let s := hostNext p.1 (.wait p.2.1)
      s.cfg.wf = true ∧ s.hostFault = none ∧ s.turns = .host :: [] ∧ s.hostQueue = .wait p.2.1 :: [] ∧
      s.engineAt p.2.1 = some p.2.2 ∧ (s.engines[p.2.2]?).isSome = true := by decide +kernel

/-- A pending engine 0, and a pending engine 1. -/
theorem witness_ResetSetsEveryRegister :
    ∀ p ∈ [(pending v15 4#32, base0, 0), (parsePending 0x100A#32, base1, 1)],
      let s := hostNext p.1 (.reset p.2.1)
      s.cfg.wf = true ∧ s.hostFault = none ∧ s.turns = .host :: [] ∧ s.hostQueue = .reset p.2.1 :: [] ∧
      s.engineAt p.2.1 = some p.2.2 := by decide +kernel

theorem witness_ResetStateIsConsistent : Config.ext250.wf = true ∧ Config.ext250.windowBases.length = 1 := by decide +kernel

/-- PARSE pending on engine 1 and SERIALIZE on engine 0, on ranges that touch. -/
def bothPending : State := { pending (parsePending 0x100A#32) 4#32 with turns := [.engine 0] }

theorem bothPending_inv : bothPending.Inv :=
  inv_of_parts (by decide +kernel) (by decide +kernel) (by decide +kernel) (by decide +kernel) (by decide +kernel) (by decide +kernel)

theorem next_of_after {o : Host.Outcome State Fault Refusal} (h : after o (fun _ => ()) = some ()) : ∃ t, o = .next t := by
  cases o with
  | next t => exact ⟨t, rfl⟩
  | fault r => simp [after] at h
  | refused r => simp [after] at h

theorem witness_StepKeepsInvariant : bothPending.Inv ∧ ∃ t, step bothPending = .next t :=
  ⟨bothPending_inv, next_of_after (by decide +kernel)⟩

/-- Engine 0's step leaves engine 1 pending, and writes the ten bytes right after engine 1's buffer. -/
theorem witness_PendingCommandSeesItsOperands :
    bothPending.Inv ∧
    after (step bothPending) (fun t => (t.hostFault, t.mem.read 0x100A,
      t.engines.map (fun e => e.statusBusy))) = some (none, 0x01#8, [false, true]) :=
  ⟨bothPending_inv, by decide +kernel⟩

theorem witness_PendingCommandCompletes :
    bothPending.Inv ∧ bothPending.hostFault = none ∧ ∃ e ∈ bothPending.others, e.statusBusy = true :=
  ⟨bothPending_inv, by decide +kernel⟩

theorem witness_EngineStepLeavesOthersAlone :
    bothPending.cfg.wf = true ∧ bothPending.hostFault = none ∧ bothPending.turns = .engine 0 :: [] ∧
      engineEnabled bothPending 0 = true ∧ 1 ≠ 0 := by decide +kernel

/-- V19 K8 and a selector with OFFSET[1:0] not 0, at engine 1. -/
theorem witness_StepRunsHostAccess :
    (∀ a ∈ [HostAction.transact base1 0b0000000010#10 0#32, .access base1 false 16 0x004 0#32,
        .access base1 false 32 0x1FC 0#32, .access base1 true 32 0x200 0#32],
      let s := hostNext twoEngines a
      s.cfg.wf = true ∧ s.hostFault = none ∧ s.turns = .host :: [] ∧ s.engineAt base1 = some 1 ∧ s.hostQueue = a :: []) ∧
    (0b0000000010#10).extractLsb' 0 2 ≠ 0#2 ∧ 16 ≠ 32 := by decide +kernel

/-- The last offset of the window, the first past it, and a misaligned one. -/
theorem witness_RegisterLinesRunTransactions :
    ∀ off ∈ [0x1FC, 0x200, 0x002], ∀ line ∈ [HostLine.wr off 7#32, .rd off, .rdEq off 7#32],
      let s : State := { twoEngines with turns := [.host], hostQueue := line.expand base1 ++ [HostAction.wait base0] }
      s.cfg.wf = true ∧ s.hostFault = none ∧ s.turns = .host :: [] ∧ s.engineAt base1 = some 1 ∧
        s.hostQueue = line.expand base1 ++ [HostAction.wait base0] := by decide +kernel

theorem witness_ProgramLinesExpand : 0 % 4 = 0 ∧ 252 % 4 = 0 := by decide +kernel

end Sys2Proof.Tests
end

section
/-! SUPPORT. The state of spec/10_state.md: every step keeps the invariant, what STATUS, CONFIG and the reserved offsets
read, and that a step runs the decoded instruction. -/

namespace Sys2Proof.Machine

/-! ### Each operation keeps the invariant -/

theorem Engine.Inv.withCrcResult {c : Config} {e : Engine} (h : e.Inv c) (v : Half) :
    Engine.Inv c { e with crcResult := v } :=
  ⟨h.rawLength, h.codeLegal, h.busyNotDone, h.codeWithoutDone, h.flagsMinimal⟩

theorem Engine.Inv.withBytesWritten {c : Config} {e : Engine} (h : e.Inv c) (v : Word) :
    Engine.Inv c { e with bytesWritten := v } :=
  ⟨h.rawLength, h.codeLegal, h.busyNotDone, h.codeWithoutDone, h.flagsMinimal⟩

/-- Giving the engine in focus other registers keeps the invariant, if they meet their own and conflict with no pending
command of another engine. -/
theorem State.Inv.withEngine {s : State} (h : s.Inv) {e : Engine} (he : e.Inv s.cfg)
    (hr : ∀ f ∈ s.others, pendingConflict s.cfg e f = false) : State.Inv { s with eng := e } :=
  h.update rfl rfl h.memCanonical h.memExists he hr

/-- An engine with no command pending conflicts with none, so its own invariant is enough. -/
theorem State.Inv.withIdleEngine {s : State} (h : s.Inv) {e : Engine} (he : e.Inv s.cfg) (hb : e.statusBusy = false) :
    State.Inv { s with eng := e } :=
  h.withEngine he fun f _ => pendingConflict_idle hb f

/-- R105: completing the command of an engine whose registers `e` meet their invariant keeps the state's. -/
theorem State.Inv.finishWith {s : State} (h : s.Inv) {e : Engine} (he : e.Inv s.cfg) (code : ResultCode) :
    (State.finish { s with eng := e } code).Inv :=
  h.withIdleEngine (he.finish code) rfl

theorem State.Inv.finish {s : State} (h : s.Inv) (code : ResultCode) : (s.finish code).Inv :=
  h.finishWith h.eng code

/-- R36: a write to addresses that exist keeps memory canonical and within them. -/
theorem State.Inv.writeBytes {s : State} (h : s.Inv) {a : Nat} {bs : List Byte}
    (ha : ∀ i < bs.length, admits s.cfg (a + i) = true) : State.Inv { s with mem := s.mem.writeBytes a bs } := by
  refine { h with memCanonical := Memory.writeBytes_wf h.memCanonical a bs, memExists := fun p hp => ?_ }
  rcases Memory.mem_writeBytes hp with hp | ⟨hlo, hhi⟩
  · exact h.memExists p hp
  · simpa [Nat.add_sub_cancel' hlo] using ha (p.1 - a) (by omega)

/-- R94: SERIALIZE's checks have passed, so every byte of the frame has an address that exists. -/
theorem State.Inv.serialize {s : State} (h : s.Inv) (hf : s.DestinationFits) :
    State.Inv { s with mem := s.mem.writeBytes s.eng.dstAddr.toNat (frameBytes s.cfg s.eng) } :=
  h.writeBytes (by rw [frameBytes_length h.eng.rawLength hf.lengthFits]; exact hf.reachable)

/-- R105: the engine step keeps the invariant, whatever the latched word. -/
theorem engineStep_inv {s t : State} (h : s.Inv) (hx : engineStep s = .next t) : t.Inv := by
  have he := h.eng
  rcases engineStep_cases s with ⟨i, hi, -, hs⟩ | ⟨-, hs⟩ <;> rw [hs] at hx
  · rcases exec_command_cases hi s with ⟨code, -, hs⟩ | ⟨-, v, hs⟩ | ⟨-, -, hs⟩ | ⟨-, -, hs⟩ | ⟨-, hf, hs⟩ <;>
      rw [hs] at hx <;> cases hx
    · exact h.finish code
    · exact h.finishWith (he.withCrcResult v) .ok
    · exact h.finishWith (State.parsedEngine_inv he) .ok
    · exact h.finishWith (he.withPayload ..) .ok
    · exact (h.serialize hf).finishWith (he.withBytesWritten _) .ok
  · cases hx
    exact h.finish .illegalCommand

/-- R102: a register write keeps the invariant; a command it issues conflicts with none that is pending. -/
theorem regWrite_inv {s t : State} {off : Nat} {v : Word} (h : s.Inv) (hx : exec (.regWrite off v) s = .next t) :
    t.Inv := by
  obtain ⟨u, hu, hcase⟩ := regWrite_cases off v s
  rw [hu] at hx
  cases hx
  rcases hcase with ⟨r, rfl⟩ | ⟨hb, r, rfl⟩ | ⟨-, rfl, hr⟩
  · exact h.congr rfl rfl rfl
  · exact h.withIdleEngine (h.eng.writeReg r v) (by rw [writeReg_statusBusy, hb])
  · exact h.withEngine (h.eng.issue v) hr

/-- What a register action of the host does to the engine in focus keeps the invariant. -/
theorem RegisterAction.inv {a : HostAction} {s t : State} (h : s.Inv) (hr : RegisterAction a s t) : t.Inv := by
  cases hr with
  | keeps ht => rw [ht]; exact h.congr rfl rfl rfl
  | writes off v hx => exact regWrite_inv h hx
  | resets base _ ht => rw [ht]; exact h.withIdleEngine (Engine.reset_inv s.cfg) rfl

/-- R49, R126: a host write of a byte that exists stores it, or is a host fault. -/
theorem hostMemWrite_inv {s : State} (h : s.Inv) {a : Nat} (ha : admits s.cfg a = true) (v : Byte) :
    (hostMemWrite a v s).Inv := by
  unfold hostMemWrite
  split
  · exact h.congr rfl rfl rfl
  · exact h.writeBytes (bs := [v]) (by simpa using ha)

theorem hostMemRead_inv {s : State} (h : s.Inv) (a : Nat) : (hostMemRead a s).Inv := by
  unfold hostMemRead
  split <;> exact h.congr rfl rfl rfl

/-- Whether a host action is enabled rests on the parameters and the engines, not on the choices and actions left. -/
theorem actionEnabled_with (s : State) (ts : List Turn) (q : List HostAction) (a : HostAction) :
    actionEnabled { s with turns := ts, hostQueue := q } a = actionEnabled s a := by
  cases a <;> rfl

/-- R9: every enabled host step keeps the invariant. -/
theorem hostStep_inv {a : HostAction} {s t : State} (h : s.Inv) (hen : actionEnabled s a = true)
    (hx : hostStep a s = .next t) : t.Inv := by
  rcases hostStep_cases hen with ⟨k, -, -, u, hr, hs⟩ | ⟨addr, v, -, ha, hs⟩ | ⟨addr, -, hs⟩ <;>
    rw [hs] at hx <;> cases hx
  · exact (RegisterAction.inv (h.swap k) hr).swap k
  · exact hostMemWrite_inv h ha v
  · exact hostMemRead_inv h addr

/-- R52: every step keeps the invariant, whichever agent takes it. -/
theorem step_inv {s t : State} (h : s.Inv) (hx : step s = .next t) : t.Inv := by
  obtain ⟨-, -, ⟨k, ts, -, -, hx⟩ | ⟨a, rest, ts, -, hen, -, hx⟩ | ⟨-, -, rfl⟩⟩ := step_cases hx
  · obtain ⟨u, hu, rfl⟩ := State.onEngine_next hx
    have hs : State.Inv { s with turns := ts } := h.congr rfl rfl rfl
    exact (engineStep_inv (hs.swap k) hu).swap k
  · have hs : State.Inv { s with turns := ts, hostQueue := rest } := h.congr rfl rfl rfl
    exact hostStep_inv hs (by rwa [actionEnabled_with]) hx
  · exact h

/-! ### No step changes the parameters -/

theorem RegisterAction.cfg_eq {a : HostAction} {s t : State} (hr : RegisterAction a s t) : t.cfg = s.cfg := by
  cases hr with
  | keeps ht => rw [ht]
  | writes off v hx =>
    obtain ⟨u, hu, hcase⟩ := regWrite_cases off v s
    rw [hu] at hx
    cases hx
    rcases hcase with ⟨r, rfl⟩ | ⟨-, r, rfl⟩ | ⟨-, rfl, -⟩ <;> rfl
  | resets base _ ht => rw [ht]; rfl

theorem hostMemWrite_cfg (a : Nat) (v : Byte) (s : State) : (hostMemWrite a v s).cfg = s.cfg := by
  unfold hostMemWrite
  split <;> rfl

theorem hostMemRead_cfg (a : Nat) (s : State) : (hostMemRead a s).cfg = s.cfg := by
  unfold hostMemRead
  split <;> rfl

theorem hostStep_cfg {a : HostAction} {s t : State} (hen : actionEnabled s a = true) (hx : hostStep a s = .next t) :
    t.cfg = s.cfg := by
  rcases hostStep_cases hen with ⟨k, -, -, u, hr, hs⟩ | ⟨addr, v, -, -, hs⟩ | ⟨addr, -, hs⟩ <;>
    rw [hs] at hx <;> cases hx
  · simpa using hr.cfg_eq
  · exact hostMemWrite_cfg addr v s
  · exact hostMemRead_cfg addr s

/-- R1 to R6: the parameters are arguments of the model. -/
theorem step_cfg {s t : State} (hx : step s = .next t) : t.cfg = s.cfg := by
  obtain ⟨-, -, ⟨k, ts, hen, -, hx⟩ | ⟨a, rest, ts, -, hen, -, hx⟩ | ⟨-, -, rfl⟩⟩ := step_cases hx
  · obtain ⟨u, -, hu, -, -, -, -, hc, -⟩ := onEngine_engineStep ts hen
    rw [hu] at hx
    cases hx
    exact hc
  · exact hostStep_cfg (s := { s with turns := ts, hostQueue := rest }) (by rwa [actionEnabled_with]) hx
  · rfl

/-! ### Register transactions with BUSY = 0 -/

theorem exec_regRead_idle {s : State} {off : Nat} (hb : s.eng.statusBusy = false) (ho : offsetAdmitted off = true) :
    exec (.regRead off) s = .next (s.returnData (readReg s.cfg s.eng (regAt off))) := by
  simp [exec, execRegRead, hb, ho]

theorem exec_regWrite_idle {s : State} {off : Nat} (hb : s.eng.statusBusy = false) (ho : offsetAdmitted off = true)
    (v : Word) : exec (.regWrite off v) s = .next (s.storeReg (regAt off) v) := by
  simp [exec, execRegWrite, hb, ho]

/-- R14: the offsets that are neither in the table of R12 nor in F_RAW's range. -/
theorem regAt_reserved {off : Nat} (h : off = 0x00C ∨ 0x028 ≤ off ∧ off ≤ 0x03C ∨ 0x070 ≤ off ∧ off ≤ 0x0FC) :
    regAt off = .reserved := by
  have hraw : ¬ (0x100 ≤ off ∧ off ≤ 0x1FC) := by omega
  have htable : regTable.lookup off = none := List.lookup_eq_none_iff.mpr (by simp [regTable]; omega)
  rw [regAt, if_neg hraw, htable, Option.getD_none]

/-- R14, R16, R17, R22, R23: a register that ignores the host's writes. -/
def Reg.IgnoresWrites (r : Reg) : Prop :=
  r = .status ∨ r = .config ∨ r = .crcResult ∨ r = .bytesWritten ∨ r = .reserved

theorem Reg.IgnoresWrites.storeReg {r : Reg} (h : r.IgnoresWrites) (s : State) (v : Word) : s.storeReg r v = s := by
  rcases h with rfl | rfl | rfl | rfl | rfl <;> rfl

/-! ### STATUS and CONFIG -/

theorem exec_readConfig (s : State) : exec (.regRead 0x008) s = .next (s.returnData (configWord s.cfg)) := by
  simp [exec, execRegRead, offsetAdmitted, readableWhileBusy, regAt, regTable, readReg, List.lookup]

/-- R16: the fields of STATUS. -/
theorem statusWord_fields (e : Engine) :
    (statusWord e).extractLsb' 0 4 = e.statusCode ∧ (statusWord e).getLsbD 4 = e.statusBusy ∧
    (statusWord e).getLsbD 5 = e.statusDone ∧ (statusWord e).extractLsb' 6 26 = 0#26 := by
  unfold statusWord
  refine ⟨?_, ?_, ?_, ?_⟩
  · rw [BitVec.extractLsb'_setWidth_of_le (by decide), BitVec.extractLsb'_append_eq_right]
  · simp only [BitVec.getLsbD_setWidth, BitVec.getLsbD_append]
    simp
  · simp only [BitVec.getLsbD_setWidth, BitVec.getLsbD_append]
    simp
  · ext i hi
    simp

theorem profileBit_iff (c : Config) : profileBit c = true ↔ c.hdrProfile = .extended := by
  unfold profileBit
  cases c.hdrProfile <;> simp

/-- R17: the fields of CONFIG. -/
theorem configWord_fields (c : Config) :
    ((configWord c).getLsbD 0 = true ↔ c.hdrProfile = .extended) ∧ (configWord c).extractLsb' 1 3 = 0#3 ∧
    (configWord c).extractLsb' 4 4 = BitVec.ofNat 4 (headerSize c) ∧
    (configWord c).extractLsb' 8 8 = BitVec.ofNat 8 c.maxPayload.size ∧
    (configWord c).extractLsb' 16 8 = c.catTelemetry ∧ (configWord c).extractLsb' 24 8 = c.catBattery := by
  rw [← profileBit_iff]
  unfold configWord
  refine ⟨?_, ?_, ?_, ?_, ?_, ?_⟩
  · simp only [BitVec.getLsbD_append]
    simp
  all_goals
    simp only [BitVec.extractLsb'_append_eq_ite]
    simp

/-! ### A step runs the decoded instruction -/

/-- R118: what runs at engine `k` matters only in the state with that engine in focus. -/
theorem State.onEngine_congr {s : State} {k : Nat} {f g : State → Host.Outcome State Fault Refusal}
    (h : f (s.swap k) = g (s.swap k)) : s.onEngine k f = s.onEngine k g := by
  simp only [State.onEngine, h]

theorem engineStep_of_decode {s : State} {i : Instr} (h : decodeCommand s.eng.cmdLatch = .ok i) :
    engineStep s = exec i s := by
  simp only [engineStep, h]

theorem hostTransaction_of_decode {sel : BitVec 10} {v : Word} {i : Instr} (h : decodeTransaction sel v = .ok i)
    (s : State) : hostTransaction sel v s = exec i s := by
  simp only [hostTransaction, h]

/-! ### The obligations -/

/-- Settles O51: `step_inv` and `step_cfg`, and the invariant's ranges read in addresses. -/
theorem stepKeepsInvariant : Obligations.StepKeepsInvariant := by
  intro s t h hx
  have ht := step_inv h hx
  exact ⟨ht, step_cfg hx, ht.buffersApart⟩

/-- Settles O33: the two reads that are defined in every state, and the fields of the words they return. -/
theorem statusAndConfigRead : Obligations.StatusAndConfigRead := by
  intro s
  obtain ⟨hcode, hbusy, hdone, hzero⟩ := statusWord_fields s.eng
  exact ⟨_, _, exec_readStatus s, rfl, hcode, hbusy, hdone, hzero, exec_readConfig s, rfl,
    configWord_fields s.cfg⟩

/-- Settles O38: the offsets name `Reg.reserved`, or a register that ignores writes. -/
theorem reservedAndReadOnlyOffsets : Obligations.ReservedAndReadOnlyOffsets := by
  refine ⟨fun s off v hb h4 h => ?_, fun s off v hb h => ?_⟩
  · have ho : offsetAdmitted off = true := by simp [offsetAdmitted]; omega
    rw [exec_regRead_idle hb ho, exec_regWrite_idle hb ho, regAt_reserved h]
    exact ⟨rfl, rfl⟩
  · have ho : offsetAdmitted off = true := by rcases h with rfl | rfl | rfl | rfl <;> rfl
    have hr : (regAt off).IgnoresWrites := by
      rcases h with rfl | rfl | rfl | rfl <;> simp [regAt, regTable, Reg.IgnoresWrites, List.lookup]
    rw [exec_regWrite_idle hb ho, hr.storeReg]

/-- Settles O42: the agent whose turn it is steps, and what it runs is the decoded instruction. -/
theorem stepRunsDecodedInstruction : Obligations.StepRunsDecodedInstruction := by
  intro s i hc hf
  constructor
  · intro k ts e ht he hb hd
    rw [step_engine hc hf ht (engineEnabled_iff.mpr ⟨e, he, hb⟩)]
    apply State.onEngine_congr
    apply engineStep_of_decode
    rw [State.swap_eng (s := { s with turns := ts }) he, hd]
  · intro k ts base sel v rest ht hq hk hd
    have hk' : State.engineAt { s with turns := ts, hostQueue := rest } base = some k := hk
    rw [step_host hc hf ht hq (by simp [actionEnabled, hk]), hostStep, hk', Option.getD_some]
    exact State.onEngine_congr (hostTransaction_of_decode hd _)

end Sys2Proof.Machine
end

section
/-! SUPPORT. The memory of spec/20_memory.md: what a step leaves of a pending command's operands, that no command touches
address 0, the packing of the F_RAW window, and the host's accesses to buffer memory and to the register space. -/

namespace Sys2Proof.Machine

/-! ### What a step leaves of a pending command's operands -/

theorem RegisterAction.mem_eq {a : HostAction} {s t : State} (hr : RegisterAction a s t) : t.mem = s.mem := by
  cases hr with
  | keeps ht => rw [ht]
  | writes off v hx =>
    obtain ⟨u, hu, hcase⟩ := regWrite_cases off v s
    rw [hu] at hx
    cases hx
    rcases hcase with ⟨r, rfl⟩ | ⟨-, r, rfl⟩ | ⟨-, rfl, -⟩ <;> rfl
  | resets base _ ht => rw [ht]; rfl

theorem hostMemRead_mem (a : Nat) (s : State) : (hostMemRead a s).mem = s.mem := by
  unfold hostMemRead
  split <;> rfl

/-- R126: a host write that is no host fault changes no byte that a pending command reads. -/
theorem hostMemWrite_read_pending {s : State} {e : Engine} {a addr : Nat} {v : Byte} (hm : s.mem.wf = true)
    (he : e ∈ s.engines) (hb : e.statusBusy = true) (ha : e.readSpan.has a = true)
    (hf : (hostMemWrite addr v s).hostFault = none) : (hostMemWrite addr v s).mem.read a = s.mem.read a := by
  unfold hostMemWrite at hf ⊢
  split at hf
  · simp at hf
  · rename_i hz
    rw [if_neg hz]
    refine Memory.read_write_other hm v ?_
    rintro rfl
    exact hz (List.any_eq_true.mpr ⟨e, he, by simp [hb, ha]⟩)

/-- R126: a host step that is no host fault changes no byte that a pending command reads. -/
theorem hostStep_read_pending {act : HostAction} {s t : State} {e : Engine} {a : Nat} (h : s.Inv)
    (hen : actionEnabled s act = true) (hx : hostStep act s = .next t) (hf : t.hostFault = none) (he : e ∈ s.engines)
    (hb : e.statusBusy = true) (ha : e.readSpan.has a = true) : t.mem.read a = s.mem.read a := by
  rcases hostStep_cases hen with ⟨k, -, -, u, hr, hs⟩ | ⟨addr, v, -, -, hs⟩ | ⟨addr, -, hs⟩ <;>
    rw [hs] at hx <;> cases hx
  · rw [State.swap_mem, hr.mem_eq, State.swap_mem]
  · exact hostMemWrite_read_pending h.memCanonical he hb ha hf
  · rw [hostMemRead_mem]

/-- R118: another engine's step changes no byte that a pending command reads. -/
theorem onEngine_engineStep_read_pending {s t : State} {j k : Nat} {e : Engine} {a : Nat} (h : s.Inv)
    (hj : engineEnabled s j = true) (hx : s.onEngine j engineStep = .next t) (hjk : j ≠ k) (he : s.engines[k]? = some e)
    (hb : e.statusBusy = true) (ha : e.readSpan.has a = true) : t.mem.read a = s.mem.read a := by
  obtain ⟨d, hd, hdb⟩ := engineEnabled_iff.mp hj
  obtain ⟨u, hu, rfl⟩ := State.onEngine_next hx
  have hw : ¬ d.WritesAt s.cfg a := fun hw =>
    (h.buffersApart j k d e a hjk hd he hdb hb hw).1 (Engine.readSpan_has.mp ha)
  have hout : ((s.swap j).eng.writeSpan (s.swap j).cfg).has a = false := by
    rwa [State.swap_eng hd, State.swap_cfg, ← Bool.not_eq_true, Engine.writeSpan_has]
  rw [State.swap_mem, engineStep_mem (h.swap j) hu hout, State.swap_mem]

/-! ### No command touches address 0 (R38) -/

/-- R40: MemRead reads the byte at address 0 only when it starts there. -/
theorem memRead?_agree_off_null {c : Config} {m m' : Memory} {a n : Nat} (h : ∀ x, x ≠ 0 → m.read x = m'.read x)
    (ha : a = 0 → n = 0) : memRead? c m a n = memRead? c m' a n := by
  rcases memRead?_cases c m' a n with ⟨hr, hm⟩ | ⟨⟨i, hi, hf⟩, hm⟩
  · rw [hm, memRead?_of_reachable hr]
    refine congrArg some (List.map_congr_left fun i hi => h _ ?_)
    have := List.mem_range.mp hi
    omega
  · rw [hm, memRead?_of_unreachable hi hf]

section
variable {s : State} {m : Memory} (h : ∀ a, a ≠ 0 → m.read a = s.mem.read a)
include h

theorem runCrc16_agree_off_null : runCrc16 { s with mem := m } = (runCrc16 s).map fun t => { t with mem := m } := by
  unfold runCrc16
  by_cases hl : s.eng.srcLen = 0#32
  · simp [hl, Except.map]
  by_cases ha : s.eng.srcAddr = 0#32
  · simp [hl, ha, Except.map]
  have hn : s.eng.srcAddr.toNat = 0 → s.eng.srcLen.toNat = 0 := fun h0 => absurd (BitVec.eq_of_toNat_eq h0) ha
  simp only [hl, ha, if_false, memRead?_agree_off_null h hn]
  cases memRead? s.cfg s.mem s.eng.srcAddr.toNat s.eng.srcLen.toNat <;> rfl

theorem runFill_agree_off_null : runFill { s with mem := m } = (runFill s).map fun t => { t with mem := m } := by
  unfold runFill
  by_cases hl : s.eng.fLength.toNat > s.cfg.maxPayload.size
  · simp [hl, Except.map]
  by_cases ha : s.eng.fLength.toNat > 0 ∧ s.eng.srcAddr = 0#32
  · simp [hl, ha, Except.map]
  have hn : s.eng.srcAddr.toNat = 0 → s.eng.fLength.toNat = 0 := fun h0 =>
    Nat.eq_zero_of_not_pos fun hp => ha ⟨hp, BitVec.eq_of_toNat_eq h0⟩
  simp only [hl, ha, if_false, memRead?_agree_off_null h hn]
  cases memRead? s.cfg s.mem s.eng.srcAddr.toNat s.eng.fLength.toNat <;> rfl

theorem parseBody_agree_off_null (ha : s.eng.srcAddr ≠ 0#32) (len : Byte) :
    parseBody { s with mem := m } len = (parseBody s len).map fun t => { t with mem := m } := by
  have hn : s.eng.srcAddr.toNat = 0 → frameSize s.cfg len.toNat = 0 := fun h0 => absurd (BitVec.eq_of_toNat_eq h0) ha
  unfold parseBody
  split
  · rfl
  simp only [memRead?_agree_off_null h hn]
  cases memRead? s.cfg s.mem s.eng.srcAddr.toNat (frameSize s.cfg len.toNat) with
  | none => rfl
  | some fr => dsimp only; split <;> rfl

theorem runParse_agree_off_null : runParse { s with mem := m } = (runParse s).map fun t => { t with mem := m } := by
  unfold runParse
  by_cases ha : s.eng.srcAddr = 0#32
  · simp [ha, Except.map]
  have hn : s.eng.srcAddr.toNat + offLength s.cfg ≠ 0 := fun h0 => ha (BitVec.eq_of_toNat_eq (by simp; omega))
  simp only [ha, if_false, h _ hn, parseBody_agree_off_null h ha]
  split_ifs <;> rfl

end

theorem runSerialize_with_mem (s : State) (m : Memory) : runSerialize { s with mem := m } = (runSerialize s).map fun t =>
    { t with mem := m.writeBytes s.eng.dstAddr.toNat (frameBytes s.cfg s.eng) } := by
  simp only [runSerialize]
  split_ifs <;> rfl

/-- Where only the memory of a command's result differs, so does only the memory of the state it completes in. -/
theorem State.complete_eng_map_mem (s : State) (r : Except ResultCode State) (m n : Memory) :
    (State.complete { s with mem := m } (r.map fun t => { t with mem := n })).eng = (s.complete r).eng := by
  cases r <;> rfl

/-- R38: a command's registers do not depend on the byte at address 0. -/
theorem exec_command_eng_agree_off_null {i : Instr} (hi : IsCommand i) {s : State} {m : Memory}
    (h : ∀ a, a ≠ 0 → m.read a = s.mem.read a) :
    ∃ t u, exec i s = .next t ∧ exec i { s with mem := m } = .next u ∧ u.eng = t.eng := by
  rcases hi with rfl | rfl | rfl | rfl <;> refine ⟨_, _, rfl, rfl, ?_⟩
  · rw [runCrc16_agree_off_null h, State.complete_eng_map_mem]
  · rw [runParse_agree_off_null h, State.complete_eng_map_mem]
  · rw [runFill_agree_off_null h, State.complete_eng_map_mem]
  · rw [runSerialize_with_mem, State.complete_eng_map_mem]

/-- R38: no command writes the byte at address 0. -/
theorem exec_command_read_null {i : Instr} (hi : IsCommand i) {s t : State} (hm : s.mem.wf = true)
    (hx : exec i s = .next t) : t.mem.read 0 = s.mem.read 0 := by
  rcases exec_command_cases hi s with ⟨c, -, hs⟩ | ⟨-, v, hs⟩ | ⟨-, -, hs⟩ | ⟨-, -, hs⟩ | ⟨-, hf, hs⟩ <;>
    rw [hs] at hx <;> cases hx
  case inr.inr.inr.inr =>
    have hd : s.eng.dstAddr.toNat ≠ 0 := fun h0 => hf.notNull (BitVec.eq_of_toNat_eq h0)
    rw [State.finish_mem, Memory.read_writeBytes hm, if_neg (by omega)]
  all_goals rfl

/-! ### The F_RAW window (R47) -/

theorem regAt_rawWord {k : Nat} (hk : k < 64) : regAt (0x100 + 4 * k) = .fRawWord k := by
  rw [regAt, if_pos (by omega)]
  congr 1
  omega

theorem offsetAdmitted_rawWord {k : Nat} (hk : k < 64) : offsetAdmitted (0x100 + 4 * k) = true := by
  simp [offsetAdmitted]
  omega

theorem byteAt_of_length_le {bs : List Byte} {i : Nat} (h : bs.length ≤ i) : byteAt bs i = 0#8 :=
  List.getD_eq_default _ _ h

@[simp] theorem setRawByte_length (raw : List Byte) (i : Nat) (v : Byte) : (setRawByte raw i v).length = raw.length :=
  List.length_set

theorem byteAt_setRawByte (raw : List Byte) (i j : Nat) (v : Byte) :
    byteAt (setRawByte raw i v) j = if i = j ∧ j < raw.length then v else byteAt raw j := by
  simp only [setRawByte, byteAt, List.getD_eq_getElem?_getD, List.getElem?_set]
  by_cases hij : i = j
  · subst hij
    by_cases hl : i < raw.length <;> simp [hl]
  · simp [hij]

/-- Byte `j` of the window word `k` as it is read. -/
theorem rawWord_byte (e : Engine) (k : Nat) {j : Nat} (hj : j < 4) :
    (rawWord e k).extractLsb' (8 * j) 8 = byteAt e.fRaw (4 * k + j) := by
  obtain ⟨h0, h1, h2, h3⟩ := le32_extract (byteAt e.fRaw (4 * k)) (byteAt e.fRaw (4 * k + 1)) (byteAt e.fRaw (4 * k + 2))
    (byteAt e.fRaw (4 * k + 3))
  interval_cases j
  · exact h0
  · exact h1
  · exact h2
  · exact h3

/-- Byte `j` of the window word `k` after a write of `v`. -/
theorem writeRawWord_byte_same {raw : List Byte} {k j : Nat} (v : Word) (hj : j < 4) (hl : 4 * k + j < raw.length) :
    byteAt (writeRawWord raw k v) (4 * k + j) = v.extractLsb' (8 * j) 8 := by
  simp only [writeRawWord, byteAt_setRawByte, setRawByte_length, hl, and_true]
  interval_cases j <;> simp

theorem writeRawWord_byte_other (raw : List Byte) {k i : Nat} (v : Word) (hi : i < 4 * k ∨ 4 * k + 4 ≤ i) :
    byteAt (writeRawWord raw k v) i = byteAt raw i := by
  simp only [writeRawWord, byteAt_setRawByte]
  rw [if_neg (by omega), if_neg (by omega), if_neg (by omega), if_neg (by omega)]

/-! ### The host's accesses to buffer memory (R49) -/

section
variable {s : State} (hb : ∀ e ∈ s.engines, e.statusBusy = false)
include hb

/-- With no command pending and no turn chosen, an enabled host action is the step. -/
theorem step_host_idle {a : HostAction} {rest : List HostAction} (hc : s.cfg.wf = true) (hf : s.hostFault = none)
    (ht : s.turns = []) (hq : s.hostQueue = a :: rest) (hen : actionEnabled s a = true) :
    step s = hostStep a { s with hostQueue := rest } := by
  have hp : pickTurn s [] = some (.host, []) := by
    simp [pickTurn, defaultTurn, findIdx?_idle hb, hostEnabled, hq, hen]
  simp [step, systemStep, takeTurn, hc, hf, hp, hq, ht]

/-- With no command pending, a host action that is not enabled leaves no agent a step. -/
theorem step_stuck {a : HostAction} {rest : List HostAction} (hc : s.cfg.wf = true) (hf : s.hostFault = none)
    (hq : s.hostQueue = a :: rest) (hen : actionEnabled s a = false) : step s = .fault .hostStuck := by
  have hp : pickTurn s s.turns = none := pickTurn_none (by simp [hostEnabled, hq, hen]) hb _
  simp [step, systemStep, noTurn, hc, hf, hp, hq]

theorem hostMemWrite_idle (a : Nat) (v : Byte) : hostMemWrite a v s = { s with mem := s.mem.write a v } := by
  have hz : s.hostWriteHazard a = false := List.any_eq_false.mpr fun e he => by simp [hb e he]
  simp [hostMemWrite, hz]

theorem hostMemRead_idle (a : Nat) : hostMemRead a s = { s with hostByte := s.mem.read a } := by
  have hz : s.hostReadHazard a = false := List.any_eq_false.mpr fun e he => by simp [hb e he]
  simp [hostMemRead, hz]

end

/-! ### Bad register accesses (R48) -/

theorem exec_regRead_bad {s : State} {off : Nat} (ho : offsetAdmitted off = false) :
    exec (.regRead off) s = .next (s.recordFault .badRegisterAccess) := by
  simp [exec, execRegRead, ho]

theorem exec_regWrite_bad {s : State} {off : Nat} (ho : offsetAdmitted off = false) (v : Word) :
    exec (.regWrite off v) s = .next (s.recordFault .badRegisterAccess) := by
  simp [exec, execRegWrite, ho]

theorem hostAccess_bad_width {width : Nat} (hw : width ≠ 32) (write : Bool) (off : Nat) (v : Word) (s : State) :
    hostAccess write width off v s = .next (s.recordFault .badRegisterAccess) := by
  rw [hostAccess, if_neg hw]

/-- R69: the low bits of a selector are OFFSET[1:0]. -/
theorem selectorOffset_mod_four (sel : BitVec 10) : selectorOffset sel % 4 = (sel.extractLsb' 0 2).toNat := by
  simp only [selectorOffset, BitVec.extractLsb'_toNat]
  omega

theorem hostTransaction_misaligned {sel : BitVec 10} (h : sel.extractLsb' 0 2 ≠ 0#2) (v : Word) (s : State) :
    hostTransaction sel v s = .next (s.recordFault .badRegisterAccess) := by
  have h4 : selectorOffset sel % 4 ≠ 0 := fun h0 =>
    h (BitVec.eq_of_toNat_eq ((selectorOffset_mod_four sel).symm.trans h0))
  simp [hostTransaction, decodeTransaction, h4]

/-- Recording a host fault at engine `k` records it in the whole state. -/
theorem State.onEngine_recordFault {s : State} {k : Nat} {r : HostFaultReason}
    {f : State → Host.Outcome State Fault Refusal} (h : ∀ u, f u = .next (u.recordFault r)) :
    s.onEngine k f = .next (s.recordFault r) := by
  rw [State.onEngine_eq (h _)]
  congr 1
  calc ((s.swap k).recordFault r).swap k
      = { s with hostFault := some r, hostQueue := (s.swap k).hostQueue, rdata := (s.swap k).rdata
                 draws := (s.swap k).draws } := State.swap_keep ..
    _ = s.recordFault r := by simp [State.recordFault]

section
variable {s : State} {base k : Nat} {v : Word} {ts : List Turn} {rest : List HostAction} (hc : s.cfg.wf = true)
  (hf : s.hostFault = none) (ht : s.turns = .host :: ts) (hk : s.engineAt base = some k)
include hc hf ht hk

theorem step_transact {sel : BitVec 10} (hq : s.hostQueue = .transact base sel v :: rest) :
    step s = State.onEngine { s with turns := ts, hostQueue := rest } k (hostTransaction sel v) := by
  have hk' : State.engineAt { s with turns := ts, hostQueue := rest } base = some k := hk
  rw [step_host hc hf ht hq (by simp [actionEnabled, hk]), hostStep, hk', Option.getD_some]

theorem step_access {write : Bool} {width off : Nat} (hq : s.hostQueue = .access base write width off v :: rest) :
    step s = State.onEngine { s with turns := ts, hostQueue := rest } k (hostAccess write width off v) := by
  have hk' : State.engineAt { s with turns := ts, hostQueue := rest } base = some k := hk
  rw [step_host hc hf ht hq (by simp [actionEnabled, hk]), hostStep, hk', Option.getD_some]

end

/-! ### The obligations -/

/-- Settles O52: an engine's step ends that engine's command and writes no byte another pending command reads, and a host
step that changes a register or such a byte is a host fault or a reset. -/
theorem pendingCommandSeesItsOperands : Obligations.PendingCommandSeesItsOperands := by
  intro s t k e f h hx hf he hb hfe hfb
  obtain ⟨-, -, ⟨j, ts, hen, -, hx⟩ | ⟨act, rest, ts, -, hen, -, hx⟩ | ⟨-, -, rfl⟩⟩ := step_cases hx
  · obtain ⟨t', d, hx', heng, hd, -⟩ := onEngine_engineStep ts hen
    obtain rfl : t' = t := Host.Outcome.next.inj (hx'.symm.trans hx)
    have hjk : j ≠ k := by
      rintro rfl
      rw [heng, List.getElem?_set_self (List.getElem?_eq_some_iff.mp he).1] at hfe
      cases hfe
      simp [hd] at hfb
    rw [heng, List.getElem?_set_ne hjk, he] at hfe
    have hs : State.Inv { s with turns := ts } := h.congr rfl rfl rfl
    exact ⟨(Option.some.inj hfe).symm, fun a ha =>
      onEngine_engineStep_read_pending (s := { s with turns := ts }) hs hen hx hjk he hb ha⟩
  · have hs : State.Inv { s with turns := ts, hostQueue := rest } := h.congr rfl rfl rfl
    rw [← actionEnabled_with s ts rest] at hen
    refine ⟨?_, fun a ha =>
      hostStep_read_pending (s := { s with turns := ts, hostQueue := rest }) hs hen hx hf (List.mem_of_getElem? he) hb ha⟩
    obtain ⟨-, -, -, hk | ⟨hk, -⟩⟩ := hostStep_pending hen hx he hb <;> rw [hk] at hfe <;> cases hfe
    · rfl
    · simp [Engine.reset] at hfb
  · rw [he] at hfe
    exact ⟨(Option.some.inj hfe).symm, fun a _ => rfl⟩

/-- Settles O30: a command reads or writes no run of bytes that starts at address 0, but an empty one. -/
theorem engineNeverTouchesNull : Obligations.EngineNeverTouchesNull := by
  intro i s m hi hm h
  obtain ⟨t, u, ht, hu, he⟩ := exec_command_eng_agree_off_null hi h
  exact ⟨t, u, ht, hu, he, exec_command_read_null hi hm ht⟩

/-- Settles O39: the window word is read and written byte by byte. -/
theorem rawWindowPacking : Obligations.RawWindowPacking := by
  intro s k v hb hl hk
  have ho := offsetAdmitted_rawWord hk
  rw [exec_regRead_idle hb ho, exec_regWrite_idle hb ho, regAt_rawWord hk]
  refine ⟨⟨_, rfl, rfl, fun j hj => ?_⟩, _, rfl, rfl, ?_, fun j hj hlt => ?_, fun i hi => ?_⟩
  · rw [State.returnData_rdata, readReg, rawWord_byte s.eng k hj]
    split
    · rfl
    · exact byteAt_of_length_le (by omega)
  · exact (writeRawWord_length ..).trans hl
  · exact writeRawWord_byte_same v hj (hl ▸ hlt)
  · exact writeRawWord_byte_other _ v hi

/-- Settles O47: the host is the only agent with a step, and where its access has none no agent has one. -/
theorem hostMemoryAccess : Obligations.HostMemoryAccess := by
  intro s a v rest hc hf hb ht hm
  refine ⟨fun hq ha => ?_, fun hq ha => ?_, fun hq ha => step_stuck hb hc hf hq ha,
    fun hq ha => step_stuck hb hc hf hq ha⟩
  · refine ⟨s.mem.write a v, ?_, Memory.read_write_same hm a v, fun b hne => Memory.read_write_other hm v hne⟩
    rw [step_host_idle hb hc hf ht hq ha]
    exact congrArg _ (hostMemWrite_idle (s := { s with hostQueue := rest }) hb a v)
  · rw [step_host_idle hb hc hf ht hq ha]
    exact congrArg _ (hostMemRead_idle (s := { s with hostQueue := rest }) hb a)

/-- Settles O31: the offset is not admitted, the width is not 32, or the selector does not decode. -/
theorem badRegisterAccessFaults : Obligations.BadRegisterAccessFaults := by
  refine ⟨fun s off v h => ?_, fun s write width off v h => hostAccess_bad_width h write off v s,
    fun s sel v h => hostTransaction_misaligned h v s, fun s off v => ⟨rfl, rfl⟩⟩
  have ho : offsetAdmitted off = false := by simp [offsetAdmitted]; omega
  exact ⟨exec_regRead_bad ho, exec_regWrite_bad ho v⟩

/-- Settles O55: the step is the access at the engine it names, and a bad one records the fault in the whole state. -/
theorem stepRunsHostAccess : Obligations.StepRunsHostAccess := by
  intro s base k v ts rest hc hf ht hk
  refine ⟨fun sel hq h => ?_, fun write width off hq h => ?_, fun off hq => step_access hc hf ht hk hq,
    fun off hq => step_access hc hf ht hk hq⟩
  · rw [step_transact hc hf ht hk hq, State.onEngine_recordFault (hostTransaction_misaligned h v)]
    rfl
  · rw [step_access hc hf ht hk hq, State.onEngine_recordFault (hostAccess_bad_width h write off v)]
    rfl

end Sys2Proof.Machine
end

section
/-! SUPPORT. The encodings of spec/30_encoding.md: the encoder and the decoder undo each other, an illegal word is latched
and refused, and what the lines of a host program expand to and run. -/

namespace Sys2Proof.Machine

/-! ### Selectors (R69) -/

theorem selectorOffset_lt (sel : BitVec 10) : selectorOffset sel < 0x200 := BitVec.isLt _

/-- WE and OFFSET are all the bits of a selector. -/
theorem selectorOf_parts (sel : BitVec 10) : selectorOf (selectorWrites sel) (selectorOffset sel) = sel := by
  apply BitVec.eq_of_getLsbD_eq
  intro i hi
  rw [selectorOf, selectorWrites, selectorOffset, BitVec.ofNat_toNat, BitVec.setWidth_eq, BitVec.getLsbD_append]
  by_cases h9 : i < 9
  · simp [h9]
  · obtain rfl : i = 9 := by omega
    simp

/-- The transaction that a selector with these parts stands for. -/
def transactionInstr (write : Bool) (off : Nat) (v : Word) : Instr := if write then .regWrite off v else .regRead off

theorem decodeTransaction_selectorOf (write : Bool) {off : Nat} (h : offsetWellFormed off = true) (v : Word) :
    decodeTransaction (selectorOf write off) v = .ok (transactionInstr write off v) := by
  obtain ⟨-, hw, ho⟩ := Laws.EncodedForm.selectorOf_offset write h
  obtain ⟨-, h4⟩ : off < 0x200 ∧ off % 4 = 0 := by simpa [offsetWellFormed] using h
  have ho' : selectorOffset (selectorOf write off) = off := ho
  have hw' : selectorWrites (selectorOf write off) = write := hw
  rw [decodeTransaction, ho', hw', if_neg (by simp [h4])]
  cases write <;> rfl

/-- A selector decodes only where its offset is well formed, to the transaction its parts name. -/
theorem decodeTransaction_ok {sel : BitVec 10} {v : Word} {i : Instr} (h : decodeTransaction sel v = .ok i) :
    offsetWellFormed (selectorOffset sel) = true ∧ i = transactionInstr (selectorWrites sel) (selectorOffset sel) v := by
  by_cases h4 : selectorOffset sel % 4 = 0
  · have hwf : offsetWellFormed (selectorOffset sel) = true := by simp [offsetWellFormed, selectorOffset_lt, h4]
    have hd := decodeTransaction_selectorOf (selectorWrites sel) hwf v
    rw [selectorOf_parts, h] at hd
    exact ⟨hwf, Except.ok.inj hd⟩
  · simp [decodeTransaction, h4] at h

/-! ### Illegal command words (R59) -/

/-- R123: a word that decodes to no command has empty ranges. -/
theorem pendingConflict_illegal {c : Config} {e : Engine} {w : Word} (h : e.cmdLatch = w)
    (hd : decodeCommand w = .error (.illegalCommand w)) (f : Engine) : pendingConflict c e f = false := by
  subst h
  have hr : ∀ a, ¬ e.ReadsAt a := fun a => by simp [← Engine.readSpan_has, Engine.readSpan, hd]
  have hw : ∀ a, ¬ e.WritesAt c a := fun a => by simp [← Engine.writeSpan_has, Engine.writeSpan, hd]
  have hn : rangesConflict c e f = false := by
    rw [← Bool.not_eq_true, rangesConflict_iff]
    rintro ⟨a, ⟨ha, -⟩ | ⟨ha, -⟩ | ⟨ha, -⟩⟩
    · exact hw a ha
    · exact hw a ha
    · exact hr a ha
  rw [pendingConflict, hn, Bool.and_false]

theorem State.issueCommand_illegal {w : Word} (hd : decodeCommand w = .error (.illegalCommand w)) (s : State) :
    s.issueCommand w = { s with eng := s.eng.issue w } := by
  have hn : s.others.any (pendingConflict s.cfg (s.eng.issue w)) = false :=
    List.any_eq_false.mpr fun f _ => by rw [pendingConflict_illegal (Engine.issue_cmdLatch ..) hd f]; simp
  simp [State.issueCommand, hn]

theorem engineStep_illegal {s : State} {w : Word} (h : s.eng.cmdLatch = w)
    (hd : decodeCommand w = .error (.illegalCommand w)) : engineStep s = .next (s.finish .illegalCommand) := by
  simp only [engineStep, h, hd]

/-! ### Register lines of a host program (R70) -/

theorem hostAccess_word (write : Bool) (off : Nat) (v : Word) :
    hostAccess write 32 off v = exec (transactionInstr write off v) := by
  cases write <;> rfl

section
variable {s : State} {base k : Nat} {ts : List Turn} {rest : List HostAction} (hc : s.cfg.wf = true)
  (hf : s.hostFault = none) (ht : s.turns = .host :: ts) (hk : s.engineAt base = some k)
include hc hf ht hk

/-- `asmWrite` and `asmRead` run the transaction at the very offset they are given, inside the window or not. -/
theorem step_registerLine {write : Bool} {off : Nat} {v : Word}
    (hq : s.hostQueue = (if off < 0x200 then .transact base (selectorOf write off) v else .access base write 32 off v)
      :: rest) :
    step s = State.onEngine { s with turns := ts, hostQueue := rest } k (exec (transactionInstr write off v)) := by
  by_cases ho : off < 0x200
  · rw [if_pos ho] at hq
    rw [step_transact hc hf ht hk hq]
    exact State.onEngine_congr (hostTransaction_selectorOf write ho v _)
  · rw [if_neg ho] at hq
    rw [step_access hc hf ht hk hq, hostAccess_word]

theorem step_wait (hq : s.hostQueue = .wait base :: rest) :
    step s = State.onEngine { s with turns := ts, hostQueue := rest } k (hostWait base) := by
  have hk' : State.engineAt { s with turns := ts, hostQueue := rest } base = some k := hk
  rw [step_host hc hf ht hq (by simp [actionEnabled, hk]), hostStep, hk', Option.getD_some]

end

/-- R70: one read of a `WAIT` loop returns STATUS, and leaves the `WAIT` where BUSY is 1. -/
theorem hostWait_eq (base : Nat) (s : State) :
    hostWait base s = .next { s with
      rdata := statusWord s.eng
      hostQueue := if s.eng.statusBusy then .wait base :: s.hostQueue else s.hostQueue } := by
  obtain ⟨-, hbusy, -, -⟩ := statusWord_fields s.eng
  rw [hostWait, exec_readStatus]
  simp only [statusWordBusy, State.returnData_rdata, hbusy]
  cases s.eng.statusBusy <;> rfl

/-- The read of a `WAIT` at engine `k` shows no trace of putting that engine in focus. -/
theorem State.onEngine_hostWait {s : State} {k : Nat} {e : Engine} (he : s.engines[k]? = some e) (base : Nat) :
    s.onEngine k (hostWait base) = .next { s with
      rdata := statusWord e
      hostQueue := if e.statusBusy then .wait base :: s.hostQueue else s.hostQueue } := by
  rw [State.onEngine_eq (hostWait_eq base _), ← State.swap_eng he]
  congr 1
  refine (State.swap_keep s k (s.swap k).hostFault _ _ (s.swap k).draws).trans ?_
  simp

/-! ### Lines that expand to several actions (R70) -/

theorem asmMemWrites_eq (a : Nat) (bs : List Byte) :
    asmMemWrites a bs = (List.range bs.length).map fun i => .memWrite (a + i) (byteAt bs i) := by
  induction bs generalizing a with
  | nil => rfl
  | cons b bs ih =>
    rw [asmMemWrites, ih, List.length_cons, List.range_succ_eq_map, List.map_cons, List.map_map]
    simp [byteAt, Function.comp_def, Nat.add_assoc, Nat.add_comm 1]

theorem asmMemReads_eq (a n : Nat) : asmMemReads a n = (List.range n).map fun i => .memRead (a + i) := by
  induction n generalizing a with
  | zero => rfl
  | succ n ih =>
    rw [asmMemReads, ih, List.range_succ_eq_map, List.map_cons, List.map_map]
    simp [Function.comp_def, Nat.add_assoc, Nat.add_comm 1]

/-- R47: the window word `j` that a byte list fills, with 0 for the bytes past its end. -/
def listWord (bs : List Byte) (j : Nat) : Word :=
  le32 (byteAt bs (4 * j)) (byteAt bs (4 * j + 1)) (byteAt bs (4 * j + 2)) (byteAt bs (4 * j + 3))

theorem listWord_cons_succ (b0 b1 b2 b3 : Byte) (bs : List Byte) (j : Nat) :
    listWord (b0 :: b1 :: b2 :: b3 :: bs) (j + 1) = listWord bs j := rfl

/-- R47: one write of a window word for each word the bytes touch. -/
theorem asmRawWrites_eq (base off : Nat) (bs : List Byte) :
    asmRawWrites base off bs =
      (List.range ((bs.length + 3) / 4)).map fun j => asmWrite base (off + 4 * j) (listWord bs j) := by
  fun_induction asmRawWrites base off bs with
  | case1 off => rfl
  | case2 off b0 => simp [listWord, byteAt]
  | case3 off b0 b1 => simp [listWord, byteAt]
  | case4 off b0 b1 b2 => simp [listWord, byteAt]
  | case5 off b0 b1 b2 b3 bs ih =>
    have hlen : ((b0 :: b1 :: b2 :: b3 :: bs).length + 3) / 4 = (bs.length + 3) / 4 + 1 := by
      simp only [List.length_cons]
      omega
    rw [ih, hlen, List.range_succ_eq_map, List.map_cons, List.map_map]
    congr 1
    apply List.map_congr_left
    intro j _
    rw [Function.comp_apply, listWord_cons_succ, Nat.mul_succ, Nat.add_assoc, Nat.add_comm 4]

/-! ### The obligations -/

/-- Settles O1: the table of the command words, and the selector's parts taken back from it. -/
theorem decodeOfEncode : Obligations.DecodeOfEncode := by
  intro i h
  cases i with
  | crc16 => rfl
  | parse => rfl
  | fill => rfl
  | serialize => rfl
  | regRead off => exact decodeTransaction_selectorOf false h 0#32
  | regWrite off v => exact decodeTransaction_selectorOf true h v

/-- Settles O2: only the four command words decode, and a selector is made of the parts it decodes to. -/
theorem encodeOfDecode : Obligations.EncodeOfDecode := by
  intro x i h
  cases x with
  | command w =>
    have hd : decodeCommand w = .ok i := h
    rcases decodeCommand_cases w with ⟨rfl, hw⟩ | ⟨rfl, hw⟩ | ⟨rfl, hw⟩ | ⟨rfl, hw⟩ | ⟨-, -, -, -, hw⟩ <;>
      rw [hw] at hd <;> cases hd
    all_goals exact ⟨rfl, .inl rfl⟩
  | transaction sel v =>
    obtain ⟨hwf, rfl⟩ := decodeTransaction_ok h
    have hsel := selectorOf_parts sel
    cases hw : selectorWrites sel <;> rw [hw] at hsel
    · exact ⟨hwf, .inr ⟨sel, v, rfl, hw, congrArg (Encoded.transaction · 0#32) hsel⟩⟩
    · exact ⟨hwf, .inl (congrArg (Encoded.transaction · v) hsel)⟩

/-- Settles O3: six of the words are the encodings of well-formed instructions, and two are none. -/
theorem writtenOutWordsDecode : Obligations.WrittenOutWordsDecode :=
  ⟨decodeOfEncode .crc16 rfl, decodeOfEncode .parse rfl, decodeOfEncode .fill rfl, decodeOfEncode .serialize rfl,
    decodeOfEncode (.regRead 0x020) rfl, decodeOfEncode (.regWrite 0x014 9#32) rfl, rfl, rfl⟩

/-- Settles O4: an illegal word has empty ranges, so its CMD write meets no conflict. -/
theorem illegalWordsAreLatchedAndRefused : Obligations.IllegalWordsAreLatchedAndRefused := by
  intro w h1 h2 h3 h4
  have hd : decodeCommand w = .error (.illegalCommand w) := by
    rcases decodeCommand_cases w with ⟨h, -⟩ | ⟨h, -⟩ | ⟨h, -⟩ | ⟨h, -⟩ | ⟨-, -, -, -, hd⟩
    · exact absurd h h1
    · exact absurd h h2
    · exact absurd h h3
    · exact absurd h h4
    · exact hd
  refine ⟨hd, fun s hb => ?_, fun s h => engineStep_illegal h hd⟩
  rw [exec_regWrite_idle hb rfl]
  exact congrArg _ (State.issueCommand_illegal hd s)

/-- Settles O48: the host's step is one read of the loop, at the engine `WAIT` names. -/
theorem waitPollsStatus : Obligations.WaitPollsStatus := by
  intro s base k e ts rest hc hf ht hq hk he
  rw [step_wait hc hf ht hk hq]
  exact State.onEngine_hostWait (s := { s with turns := ts, hostQueue := rest }) he base

/-- Settles O56: the three lines are `asmWrite` and `asmRead` at their offset. -/
theorem registerLinesRunTransactions : Obligations.RegisterLinesRunTransactions := by
  intro s base k off v ts rest hc hf ht hk
  exact ⟨fun hq => step_registerLine hc hf ht hk (write := true) hq,
    fun hq => step_registerLine hc hf ht hk (write := false) hq,
    fun hq => step_registerLine hc hf ht hk (write := false) hq⟩

/-- Settles O57: each expansion, in positions. -/
theorem programLinesExpand : Obligations.ProgramLinesExpand := by
  intro base
  refine ⟨rfl, rfl, rfl, rfl, rfl, asmMemWrites_eq, asmMemReads_eq, fun i bs _ => ?_⟩
  rw [HostLine.expand, asmRawWrites_eq, ← List.flatMap_pure_eq_map]
  rfl

end Sys2Proof.Machine
end

section
/-! SUPPORT. The checksum of spec/40_crc.md: the table-driven form, what a changed byte does to it, and the results of
CRC16 and of PARSE that rest on it. -/

namespace Sys2Proof.Machine

/-! ### The table-driven form (R73) -/

theorem crcShift_of_lt {r : Half} (h : r.toNat < 2 ^ 15) : crcShift r = r <<< 1 := by
  have hm : r.msb = false := by simpa [BitVec.msb_eq_decide] using h
  rw [crcShift, hm, if_neg Bool.false_ne_true]

/-- While the bits shifted out are 0, no shift XORs the polynomial in. -/
theorem crcShifts_of_lt {n : Nat} (hn : n ≤ 16) {r : Half} (h : r.toNat < 2 ^ (16 - n)) : crcShifts n r = r <<< n := by
  induction n generalizing r with
  | zero => rw [crcShifts, BitVec.shiftLeft_zero]
  | succ n ih =>
    have hpow : 2 ^ (16 - n) = 2 * 2 ^ (16 - (n + 1)) := by
      rw [show 16 - n = 16 - (n + 1) + 1 by omega, Nat.pow_succ']
    have hle : 2 ^ (16 - (n + 1)) ≤ 2 ^ 15 := Nat.pow_le_pow_right (by decide) (by omega)
    have hshift : (r <<< 1).toNat < 2 ^ (16 - n) := by
      rw [BitVec.toNat_shiftLeft, Nat.shiftLeft_eq]
      omega
    rw [crcShifts, crcShift_of_lt (by omega), ih (by omega) hshift, ← BitVec.shiftLeft_add, Nat.add_comm]

/-- CrcStep meets a byte and the register's high half only through their XOR; the low half is left over. -/
theorem xor_byte_eq_halves (r : Half) (b : Byte) :
    r ^^^ (b.setWidth 16 <<< 8) =
      (r.extractLsb' 0 8).setWidth 16 ^^^ ((r.extractLsb' 8 8 ^^^ b).setWidth 16 <<< 8) := by
  apply BitVec.eq_of_getLsbD_eq
  intro i hi
  by_cases h : i < 8
  · simp [h, hi]
  · simp [h, hi, show i - 8 < 8 by omega, show 8 + (i - 8) = i by omega]

theorem low_half_shiftLeft (r : Half) : (r.extractLsb' 0 8).setWidth 16 <<< 8 = r <<< 8 := by
  apply BitVec.eq_of_getLsbD_eq
  intro i hi
  by_cases h : i < 8
  · simp [h]
  · simp [hi, h, show i - 8 < 8 by omega, show i - 8 < 16 by omega]

/-- R73: one lookup in the table of CrcStep from the zero register stands for the 8 shifts of a byte. -/
theorem crcStep_eq_table (r : Half) (b : Byte) :
    crcStep r b = (r <<< 8) ^^^ crcStep 0#16 (r.extractLsb' 8 8 ^^^ b) := by
  have hlow : crcShifts 8 ((r.extractLsb' 0 8).setWidth 16) = r <<< 8 := by
    rw [crcShifts_of_lt (by decide) (by rw [BitVec.toNat_setWidth_of_le (by decide)]; exact BitVec.isLt _),
      low_half_shiftLeft]
  rw [crcStep, crcStep, xor_byte_eq_halves, crcShifts_xor, hlow, BitVec.zero_xor]

/-! ### A changed byte (R74) -/

/-- The registers part at the changed byte, and equal bytes never bring them together again. -/
theorem crc16_ne_of_byte_ne (xs ys : List Byte) {b d : Byte} (h : b ≠ d) :
    crc16 (xs ++ b :: ys) ≠ crc16 (xs ++ d :: ys) := by
  rw [crc16_append, crc16_append]
  exact fun hc => h (crcStep_byte_injective (foldl_crcStep_injective hc))

theorem flipBit_ne (b : Byte) {j : Nat} (hj : j < 8) : b ^^^ (1#8 <<< j) ≠ b := by
  intro h
  have hbit := congrArg (fun v : Byte => v.getLsbD j) h
  simp [hj] at hbit

theorem range_eq_append_cons {i n : Nat} (hi : i < n) :
    List.range n = List.range i ++ i :: List.range' (i + 1) (n - (i + 1)) := by
  have htail : List.range' i (n - i) = i :: List.range' (i + 1) (n - (i + 1)) := by
    rw [show n - i = n - (i + 1) + 1 by omega, List.range'_succ]
  simpa [htail, List.range_eq_range', Nat.add_sub_cancel' (Nat.le_of_lt hi)] using
    (List.range'_append_1 (s := 0) (m := i) (n := n - i)).symm

/-- R74, for the bytes of a buffer in positions. -/
theorem crc16_range_ne {f g : Nat → Byte} {i n : Nat} (hi : i < n) (hne : f i ≠ g i) (h : ∀ k, k ≠ i → f k = g k) :
    crc16 ((List.range n).map f) ≠ crc16 ((List.range n).map g) := by
  rw [range_eq_append_cons hi, List.map_append, List.map_append, List.map_cons, List.map_cons]
  have hleft : (List.range i).map f = (List.range i).map g :=
    List.map_congr_left fun k hk => h k (Nat.ne_of_lt (List.mem_range.mp hk))
  have hright : (List.range' (i + 1) (n - (i + 1))).map f = (List.range' (i + 1) (n - (i + 1))).map g :=
    List.map_congr_left fun k hk => h k (Nat.ne_of_gt (List.mem_range'_1.mp hk).1)
  rw [hleft, hright]
  exact crc16_ne_of_byte_ne _ _ hne

/-! ### CRC16 (R75) -/

theorem exec_crc16_ok {s t : State} (h : runCrc16 s = .ok t) : exec .crc16 s = .next (t.onlyStatus 0#4) :=
  congrArg (fun r => Host.Outcome.next (s.complete r)) h

theorem exec_crc16_error {s : State} {code : ResultCode} (h : runCrc16 s = .error code) :
    exec .crc16 s = .next (s.onlyStatus code.bits) :=
  congrArg (fun r => Host.Outcome.next (s.complete r)) h

/-! ### PARSE of a frame with one byte changed (R81) -/

/-- `s` with the byte `v` at position `i` of the buffer at SRC_ADDR. -/
def State.withSrcByte (s : State) (i : Nat) (v : Byte) : State :=
  { s with mem := s.mem.write (s.eng.srcAddr.toNat + i) v }

@[simp] theorem State.withSrcByte_cfg (s : State) (i : Nat) (v : Byte) : (s.withSrcByte i v).cfg = s.cfg := rfl
@[simp] theorem State.withSrcByte_eng (s : State) (i : Nat) (v : Byte) : (s.withSrcByte i v).eng = s.eng := rfl

theorem exec_parse_error {s : State} {code : ResultCode} (h : runParse s = .error code) :
    exec .parse s = .next (s.onlyStatus code.bits) :=
  congrArg (fun r => Host.Outcome.next (s.complete r)) h

section
variable {s : State} (hm : s.mem.wf = true) {i : Nat} {v : Byte}
include hm

@[simp] theorem State.withSrcByte_srcByte_same : (s.withSrcByte i v).srcByte i = v :=
  Memory.read_write_same hm _ v

theorem State.withSrcByte_srcByte_other {k : Nat} (hk : k ≠ i) : (s.withSrcByte i v).srcByte k = s.srcByte k :=
  Memory.read_write_other hm v (by simpa using hk)

/-- PARSE's steps 1 to 3 look at no byte of the buffer but the length byte. -/
theorem State.SourceFits.withSrcByte (h : s.SourceFits) (hi : i ≠ offLength s.cfg) : (s.withSrcByte i v).SourceFits := by
  have hlen : (s.withSrcByte i v).srcLength = s.srcLength := State.withSrcByte_srcByte_other hm (Ne.symm hi)
  exact ⟨h.notNull, h.notShort, h.lengthReachable, by rw [hlen]; exact h.lengthFits, by rw [hlen]; exact h.frameFits⟩

/-- A changed byte under the checksum changes the computed value and not the received one. -/
theorem State.withSrcByte_mismatch_covered {len : Nat} (hc : s.srcComputedCrc len = s.srcReceivedCrc len)
    (hi : i < headerSize s.cfg + len) (hv : v ≠ s.srcByte i) :
    (s.withSrcByte i v).srcComputedCrc len ≠ (s.withSrcByte i v).srcReceivedCrc len := by
  have hreceived : (s.withSrcByte i v).srcReceivedCrc len = s.srcReceivedCrc len := by
    rw [State.srcReceivedCrc, State.withSrcByte_cfg, State.withSrcByte_srcByte_other hm (by omega),
      State.withSrcByte_srcByte_other hm (by omega), State.srcReceivedCrc]
  rw [hreceived, ← hc]
  refine crc16_range_ne hi ?_ fun k hk => State.withSrcByte_srcByte_other hm hk
  rwa [State.withSrcByte_srcByte_same hm]

/-- A changed checksum byte changes the received value and not the computed one. -/
theorem State.withSrcByte_mismatch_checksum {len : Nat} (hc : s.srcComputedCrc len = s.srcReceivedCrc len)
    (hlo : headerSize s.cfg + len ≤ i) (hhi : i < frameSize s.cfg len) (hv : v ≠ s.srcByte i) :
    (s.withSrcByte i v).srcComputedCrc len ≠ (s.withSrcByte i v).srcReceivedCrc len := by
  have hcomputed : (s.withSrcByte i v).srcComputedCrc len = s.srcComputedCrc len := by
    refine congrArg crc16 (List.map_congr_left fun k hk => State.withSrcByte_srcByte_other hm ?_)
    have : k < headerSize s.cfg + len := List.mem_range.mp hk
    omega
  rw [hcomputed, hc]
  intro heq
  obtain ⟨h0, h1⟩ := le16_injective heq
  have hsame : (s.withSrcByte i v).srcByte i = s.srcByte i := by
    unfold frameSize at hhi
    obtain rfl | rfl : i = headerSize s.cfg + len ∨ i = headerSize s.cfg + len + 1 := by omega
    · exact h0.symm
    · exact h1.symm
  exact hv ((State.withSrcByte_srcByte_same hm).symm.trans hsame)

/-- C1, for any change of one byte: a valid frame with a byte other than its length byte changed ends PARSE with
InvalidCRC. -/
theorem State.SourceValid.runParse_withSrcByte (h : s.SourceValid) (hi : i < frameSize s.cfg s.srcLength.toNat)
    (hl : i ≠ offLength s.cfg) (hv : v ≠ s.srcByte i) : runParse (s.withSrcByte i v) = .error .invalidCRC := by
  have hlen : (s.withSrcByte i v).srcLength = s.srcLength := State.withSrcByte_srcByte_other hm (Ne.symm hl)
  apply (h.toSourceFits.withSrcByte hm hl).runParse_mismatch <;> rw [hlen]
  · exact h.frameReachable
  · by_cases hcov : i < headerSize s.cfg + s.srcLength.toNat
    · exact State.withSrcByte_mismatch_covered hm h.checksumMatches hcov hv
    · exact State.withSrcByte_mismatch_checksum hm h.checksumMatches (Nat.le_of_not_lt hcov) hi hv

end

/-! ### The obligations -/

/-- Settles O6: each step of the fold is one lookup. -/
theorem tableDrivenCrcAgrees : Obligations.TableDrivenCrcAgrees := by
  intro bs
  exact congrArg (List.foldl · 0xFFFF#16 bs) (funext₂ fun r b => (crcStep_eq_table r b).symm)

/-- Settles O8: CrcStep loses neither a byte nor a register. -/
theorem crcDetectsSingleByteChange : Obligations.CrcDetectsSingleByteChange :=
  fun xs ys _ _ h => crc16_ne_of_byte_ne xs ys h

/-- Settles O7: a flipped bit is a changed byte. -/
theorem crcDetectsSingleBitChange : Obligations.CrcDetectsSingleBitChange :=
  fun xs ys b _ hj => crc16_ne_of_byte_ne xs ys (flipBit_ne b hj)

/-- Settles O9: the four cases of CRC16's pseudocode. -/
theorem crc16Result : Obligations.Crc16Result := by
  refine ⟨rfl, fun s => ⟨fun h => ?_, fun hn h => ?_, fun hn ha h => ?_, fun hn ha h => ?_⟩⟩
  · exact exec_crc16_ok (runCrc16_empty h)
  · exact exec_crc16_error (runCrc16_null hn h)
  · obtain ⟨i, hi, hr⟩ := h
    exact exec_crc16_error (runCrc16_unreachable hn ha hi hr)
  · exact exec_crc16_ok (runCrc16_ok hn ha h)

/-- Settles O19: a flipped bit outside the length byte is a changed byte there. -/
theorem parseDetectsBitFlip : Obligations.ParseDetectsBitFlip :=
  fun s i _ h hm hi hl hj => exec_parse_error (h.runParse_withSrcByte hm hi hl (flipBit_ne (s.srcByte i) hj))

/-- Settles O5: the lists are short enough to evaluate. -/
theorem crcValues : Obligations.CrcValues := by
  unfold Obligations.CrcValues
  decide +kernel

end Sys2Proof.Machine
end

section
/-! SUPPORT. PARSE (spec/41_parse.md): its failing steps, a valid frame, and the frame registers as a function of the
frame bytes. -/

namespace Sys2Proof.Machine

/-! ### The fixed offsets (R3), by the profile -/

theorem minFrameSize_minimal {c : Config} (h : c.hdrProfile = .minimal) : minFrameSize c = 5 := by
  rw [minFrameSize, headerSize, h]

theorem minFrameSize_extended {c : Config} (h : c.hdrProfile = .extended) : minFrameSize c = 6 := by
  rw [minFrameSize, headerSize, h]

theorem offSequence_eq (c : Config) : offSequence c = if c.hdrProfile = .extended then 2 else 1 := by
  unfold offSequence; cases c.hdrProfile <;> rfl

theorem offLength_eq (c : Config) : offLength c = if c.hdrProfile = .extended then 3 else 2 := by
  unfold offLength; cases c.hdrProfile <;> rfl

theorem offSequence_lt_headerSize (c : Config) : offSequence c < headerSize c := by
  unfold offSequence headerSize; cases c.hdrProfile <;> decide

theorem headerSize_lt_frameSize (c : Config) (len : Nat) : headerSize c < frameSize c len := by
  unfold frameSize; omega

theorem minFrameSize_le_frameSize (c : Config) (len : Nat) : minFrameSize c ≤ frameSize c len := by
  unfold minFrameSize frameSize; omega

/-! ### A valid frame (R82) -/

theorem State.SourceValid.exec_parse {s : State} (h : s.SourceValid) :
    exec .parse s = .next (State.onlyStatus { s with eng := s.parsedEngine } 0#4) :=
  congrArg (fun r => Host.Outcome.next (s.complete r)) h.runParse_ok

/-- R25, R82: the flags register holds the byte at OFF_FLAGS, or 0 where the profile has none. -/
theorem State.parsedEngine_fFlags (s : State) :
    s.parsedEngine.fFlags = if s.cfg.hdrProfile = .extended then s.srcByte 1 else 0#8 := by
  unfold State.parsedEngine Engine.withPayload
  cases s.cfg.hdrProfile <;> rfl

/-! ### The frame registers as a function of the frame bytes (R83, R84) -/

/-- The engine `e` with every frame register taken from `f`. -/
def Engine.withFrameOf (e f : Engine) : Engine :=
  { e with
    fCategory := f.fCategory, fFlags := f.fFlags, fSequence := f.fSequence, fLength := f.fLength
    fKind := f.fKind, fCrc := f.fCrc, fRoll := f.fRoll, fPitch := f.fPitch, fYaw := f.fYaw
    fVoltageMv := f.fVoltageMv, fCurrentMa := f.fCurrentMa, fPercent := f.fPercent, fRaw := f.fRaw }

/-- `r` reaches at its SRC_ADDR the bytes of the frame that `s` has at its own. -/
structure State.SameFrame (s r : State) : Prop where
  cfg : r.cfg = s.cfg
  reachable : ∀ i < frameSize s.cfg s.srcLength.toNat, r.srcReachable i
  bytes : ∀ i < frameSize s.cfg s.srcLength.toNat, r.srcByte i = s.srcByte i

namespace State.SameFrame

variable {s r : State} (hf : s.SameFrame r)
include hf

theorem headerByte {i : Nat} (hi : i < headerSize s.cfg) : r.srcByte i = s.srcByte i :=
  hf.bytes i (hi.trans (headerSize_lt_frameSize ..))

theorem srcLength : r.srcLength = s.srcLength := by
  rw [State.srcLength, hf.cfg]
  exact hf.headerByte (offLength_lt_headerSize _)

theorem srcComputedCrc : r.srcComputedCrc s.srcLength.toNat = s.srcComputedCrc s.srcLength.toNat := by
  unfold State.srcComputedCrc
  rw [hf.cfg]
  refine congrArg crc16 (List.map_congr_left fun i hi => hf.bytes i ?_)
  have : i < headerSize s.cfg + s.srcLength.toNat := List.mem_range.mp hi
  unfold frameSize; omega

theorem srcReceivedCrc : r.srcReceivedCrc s.srcLength.toNat = s.srcReceivedCrc s.srcLength.toNat := by
  unfold State.srcReceivedCrc
  rw [hf.cfg, hf.bytes _ (by unfold frameSize; omega), hf.bytes _ (by unfold frameSize; omega)]

/-- R77 to R80: `r` passes steps 1 to 3 where its SRC_ADDR is not null and its SRC_LEN has room for the frame. -/
theorem sourceFits (h : s.SourceFits) (ha : r.eng.srcAddr ≠ 0#32)
    (hroom : frameSize s.cfg s.srcLength.toNat ≤ r.eng.srcLen.toNat) : r.SourceFits where
  notNull := ha
  notShort := by rw [hf.cfg]; exact (minFrameSize_le_frameSize ..).trans hroom
  lengthReachable := by
    rw [hf.cfg]
    exact hf.reachable _ ((offLength_lt_headerSize _).trans (headerSize_lt_frameSize ..))
  lengthFits := by rw [hf.cfg, hf.srcLength]; exact h.lengthFits
  frameFits := by rw [hf.cfg, hf.srcLength]; exact hroom

theorem sourceValid (h : s.SourceValid) (hr : r.SourceFits) : r.SourceValid where
  toSourceFits := hr
  frameReachable := by rw [hf.cfg, hf.srcLength]; exact hf.reachable
  checksumMatches := by rw [hf.srcLength, hf.srcComputedCrc, hf.srcReceivedCrc]; exact h.checksumMatches

/-- R83: what PARSE writes is a function of the frame bytes. -/
theorem parsedEngine : r.parsedEngine = r.eng.withFrameOf s.parsedEngine := by
  have hpos := headerSize_pos s.cfg
  have hpayload : ∀ i < s.srcLength.toNat, r.srcByte (headerSize s.cfg + i) = s.srcByte (headerSize s.cfg + i) :=
    fun i hi => hf.bytes _ (by unfold frameSize; omega)
  unfold State.parsedEngine
  rw [hf.srcLength, hf.cfg, hf.srcReceivedCrc, hf.headerByte (i := 0) (by omega), hf.headerByte (i := 1) (by omega),
    hf.headerByte (offSequence_lt_headerSize _), withPayload_congr hpayload]
  rfl

/-- R84: PARSE's result at `r` has the frame registers it has at `s`. -/
theorem exec_parse (h : s.SourceValid) (hr : r.SourceFits) :
    exec .parse r = .next (State.onlyStatus { r with eng := r.eng.withFrameOf s.parsedEngine } 0#4) := by
  rw [(hf.sourceValid h hr).exec_parse, hf.parsedEngine]

end State.SameFrame

/-- R84: a memory byte outside the frame, and SRC_LEN, are no part of the frame. -/
theorem State.SourceValid.sameFrame_write {s : State} (h : s.SourceValid) (hm : s.mem.wf = true) {a : Nat}
    (ha : a < s.eng.srcAddr.toNat ∨ s.eng.srcAddr.toNat + frameSize s.cfg s.srcLength.toNat ≤ a) (v : Byte) (n : Word) :
    s.SameFrame { s with mem := s.mem.write a v, eng := { s.eng with srcLen := n } } where
  cfg := rfl
  reachable := h.frameReachable
  bytes i hi := Memory.read_write_other hm v (by show s.eng.srcAddr.toNat + i ≠ a; omega)

/-! ### The obligations -/

/-- Settles O12: the two ways step 2 fails. -/
theorem parseDeclaredLength : Obligations.ParseDeclaredLength :=
  ⟨offLength_lt_minFrameSize, fun _ ha hs =>
    ⟨fun hr => exec_parse_error (runParse_lengthUnreachable ha hs hr),
      fun hr hl => exec_parse_error (runParse_lengthTooLarge ha hs hr hl)⟩⟩

/-- Settles O13: step 3 fails, and step 4 is not reached. -/
theorem parseTruncatedFrame : Obligations.ParseTruncatedFrame :=
  fun _ ha hs hr _ hn => exec_parse_error (runParse_truncated ha hs hr hn)

/-- Settles O14: the two ways step 4 fails. -/
theorem parseIntegrity : Obligations.ParseIntegrity := by
  refine fun s h => ⟨?_, fun hr hc => exec_parse_error (h.runParse_mismatch hr hc)⟩
  rintro ⟨i, hi, hr⟩
  exact exec_parse_error (h.runParse_unreachable hi hr)

/-- Settles O15: the registers of `State.parsedEngine`, at the offsets of each profile. -/
theorem parseValidFrame : Obligations.ParseValidFrame := by
  intro s h
  dsimp only
  rw [← s.parsedEngine_fFlags, ← offSequence_eq, ← offLength_eq]
  exact h.exec_parse

/-- Settles O16: the checks all pass, or PARSE ends with a code other than OK. -/
theorem parseOkExactlyWhenValid : Obligations.ParseOkExactlyWhenValid := by
  intro s t ht
  by_cases hv : s.SourceValid
  · rw [hv.exec_parse] at ht
    cases ht
    exact iff_of_true rfl hv
  · obtain ⟨hv', -⟩ | ⟨-, code, hcode, hrun⟩ := runParse_cases s
    · exact absurd hv' hv
    · rw [exec_parse_error hrun] at ht
      cases ht
      exact iff_of_false (mt ResultCode.bits_eq_zero.mp hcode) hv

/-- Settles O17: both states have the same frame. -/
theorem parseDependsOnFrameBytesOnly : Obligations.ParseDependsOnFrameBytesOnly := by
  intro s r t h hr hc _ hb ht
  have hf : s.SameFrame r := ⟨hc, fun i hi => (hb i hi).1, fun i hi => (hb i hi).2⟩
  rw [h.exec_parse] at ht
  cases ht
  exact ⟨_, hf.exec_parse h hr, rfl, rfl⟩

/-- Settles O18: the changed state has the same frame, and room for it. -/
theorem parseIgnoresBytesAfterFrame : Obligations.ParseIgnoresBytesAfterFrame := by
  intro s t a v n h hm ha hn ht
  have hf := h.sameFrame_write hm ha v n
  rw [h.exec_parse] at ht
  cases ht
  exact hf.exec_parse h (hf.sourceFits h.toSourceFits h.notNull hn)

/-- Settles O10: step 1 fails at the null pointer. -/
theorem parseNullPointer : Obligations.ParseNullPointer :=
  fun _ h => exec_parse_error (runParse_null h)

/-- Settles O11: MIN_FRAME_SIZE is 5 in MINIMAL and 6 in EXTENDED. -/
theorem parseShortBuffer : Obligations.ParseShortBuffer :=
  fun _ ha =>
    ⟨fun hp hn => exec_parse_error (runParse_short ha (by rwa [minFrameSize_minimal hp])),
      fun hp hn => exec_parse_error (runParse_short ha (by rwa [minFrameSize_extended hp]))⟩

end Sys2Proof.Machine
end

section
/-! SUPPORT. The payload dispatcher of spec/42_dispatch.md: Classify as equivalences, FILL in its cases, and what PARSE and
FILL leave in the payload registers. -/

namespace Sys2Proof.Machine

/-! ### Classify (R85) -/

/-- R5: the two known categories differ. -/
theorem catBattery_ne_catTelemetry {c : Config} (h : c.wf = true) : c.catBattery ≠ c.catTelemetry := by
  simp only [Config.wf, Bool.and_eq_true, decide_eq_true_eq] at h
  exact h.1.1

theorem classify_eq_telemetry_iff {c : Config} {cat : Byte} {len : Nat} :
    classify c cat len = .telemetry ↔ cat = c.catTelemetry ∧ telemetrySize ≤ len := by
  unfold classify
  split_ifs with ht hb
  · exact iff_of_true rfl ht
  · exact iff_of_false not_false ht
  · exact iff_of_false not_false ht

/-- The test for BATTERY comes second, and loses nothing by it: the two tests cannot both hold. -/
theorem classify_eq_battery_iff {c : Config} {cat : Byte} {len : Nat} (h : c.catBattery ≠ c.catTelemetry) :
    classify c cat len = .battery ↔ cat = c.catBattery ∧ batterySize ≤ len := by
  unfold classify
  split_ifs with ht hb
  · exact iff_of_false not_false fun hb => h (hb.1.symm.trans ht.1)
  · exact iff_of_true rfl hb
  · exact iff_of_false not_false hb

theorem classify_eq_raw_iff {c : Config} {cat : Byte} {len : Nat} :
    classify c cat len = .raw ↔
      ¬ (cat = c.catTelemetry ∧ telemetrySize ≤ len) ∧ ¬ (cat = c.catBattery ∧ batterySize ≤ len) := by
  unfold classify
  split_ifs with ht hb
  · exact iff_of_false not_false fun hr => hr.1 ht
  · exact iff_of_false not_false fun hr => hr.2 hb
  · exact iff_of_true rfl ⟨ht, hb⟩

/-- R91: the other category's test fails too, since the two categories differ. -/
theorem classify_eq_raw_of_short {c : Config} {cat : Byte} {len : Nat} (h : c.catBattery ≠ c.catTelemetry)
    (hs : cat = c.catTelemetry ∧ len < telemetrySize ∨ cat = c.catBattery ∧ len < batterySize) :
    classify c cat len = .raw := by
  rw [classify_eq_raw_iff]
  rcases hs with ⟨rfl, hlt⟩ | ⟨rfl, hlt⟩
  · exact ⟨fun ht => Nat.not_le.mpr hlt ht.2, fun hb => h hb.1.symm⟩
  · exact ⟨fun ht => h ht.1, fun hb => Nat.not_le.mpr hlt hb.2⟩

/-- R86: for kind RAW, Dispatch leaves every typed field 0. -/
theorem Engine.withPayload_of_raw {c : Config} {cat : Byte} {len : Nat} (h : classify c cat len = .raw) (e : Engine)
    (p : Nat → Byte) :
    e.withPayload c cat len p =
      { e with
        fKind := .raw, fRoll := 0#32, fPitch := 0#32, fYaw := 0#32, fVoltageMv := 0#16, fCurrentMa := 0#16, fPercent := 0#8
        fRaw := (List.range c.maxPayload.size).map fun i => if i < len then p i else 0#8 } := by
  simp only [Engine.withPayload, h, reduceCtorEq, if_false]

/-! ### FILL (R92) -/

theorem exec_fill_ok {s t : State} (h : runFill s = .ok t) : exec .fill s = .next (t.onlyStatus 0#4) :=
  congrArg (fun r => Host.Outcome.next (s.complete r)) h

theorem exec_fill_error {s : State} {code : ResultCode} (h : runFill s = .error code) :
    exec .fill s = .next (s.onlyStatus code.bits) :=
  congrArg (fun r => Host.Outcome.next (s.complete r)) h

/-! ### The registers PARSE and FILL leave after OK -/

/-- R82, R92: after OK the payload registers are those Dispatch gives for the F_CATEGORY and F_LENGTH beside them, and that
length fits in F_RAW. -/
theorem exec_ok_withPayload {i : Instr} {s t : State} (hi : i = .parse ∨ i = .fill) (hx : exec i s = .next t)
    (hok : t.eng.statusCode = 0#4) :
    t.eng.fLength.toNat ≤ s.cfg.maxPayload.size ∧
      ∃ p, t.eng = t.eng.withPayload s.cfg t.eng.fCategory t.eng.fLength.toNat p := by
  have hcmd : IsCommand i := by rcases hi with rfl | rfl <;> simp [IsCommand]
  rcases exec_command_cases hcmd s with ⟨code, hne, hs⟩ | ⟨rfl, -⟩ | ⟨-, hv, hs⟩ | ⟨-, hl, hs⟩ | ⟨rfl, -⟩
  · cases hs.symm.trans hx
    exact absurd (ResultCode.bits_eq_zero.mp hok) hne
  · simp at hi
  · cases hs.symm.trans hx
    exact ⟨hv.lengthFits, fun i => s.srcByte (headerSize s.cfg + i), rfl⟩
  · cases hs.symm.trans hx
    exact ⟨hl, s.srcByte, rfl⟩
  · simp at hi

/-! ### The obligations -/

/-- Settles O20: the four cases of FILL's pseudocode. -/
theorem fillResult : Obligations.FillResult := by
  refine ⟨rfl, fun s => ⟨fun h => ?_, fun hl hn h => ?_, fun hl ha h => ?_, fun hl ha h => ?_⟩⟩
  · exact exec_fill_error (runFill_tooLong h)
  · exact exec_fill_error (runFill_null hl hn h)
  · obtain ⟨i, hi, hr⟩ := h
    exact exec_fill_error (runFill_unreachable hl ha hi hr)
  · exact exec_fill_ok (runFill_ok hl ha h)

/-- Settles O22: the kind is RAW, and Dispatch leaves the typed fields 0. -/
theorem shortPayloadFallsBackToRaw : Obligations.ShortPayloadFallsBackToRaw := by
  intro i s t hi hc hx hok hs
  obtain ⟨-, p, hp⟩ := exec_ok_withPayload hi hx hok
  have hraw : classify s.cfg t.eng.fCategory t.eng.fLength.toNat = .raw :=
    classify_eq_raw_of_short (catBattery_ne_catTelemetry hc) hs
  rw [Engine.withPayload_of_raw hraw] at hp
  rw [hp]
  exact ⟨rfl, rfl, rfl, rfl, rfl, rfl, rfl⟩

/-- Settles O21: the sizes are 12 and 5, and the categories of admitted parameters differ. -/
theorem classifyByCategoryAndLength : Obligations.ClassifyByCategoryAndLength :=
  fun _ _ _ hc =>
    ⟨classify_eq_telemetry_iff, classify_eq_battery_iff (catBattery_ne_catTelemetry hc), classify_eq_raw_iff⟩

end Sys2Proof.Machine
end

section
/-! SUPPORT. SERIALIZE (spec/43_serialize.md): its checks, the frame it leaves in memory byte by byte, and what PARSE
makes of a frame that lies in memory. -/

namespace Sys2Proof.Machine

/-! ### The outcomes of SERIALIZE (R93, R94) -/

theorem exec_serialize_error {s : State} {code : ResultCode} (h : runSerialize s = .error code) :
    exec .serialize s = .next (s.onlyStatus code.bits) :=
  congrArg (fun r => Host.Outcome.next (s.complete r)) h

/-- R93: the state after the writes of SERIALIZE, before STATUS. -/
def State.serialized (s : State) : State :=
  { s with
    mem := s.mem.writeBytes s.eng.dstAddr.toNat (frameBytes s.cfg s.eng)
    eng := { s.eng with bytesWritten := BitVec.ofNat 32 (frameSize s.cfg s.eng.fLength.toNat) } }

theorem State.DestinationFits.exec_serialize {s : State} (h : s.DestinationFits) :
    exec .serialize s = .next (s.serialized.onlyStatus 0#4) :=
  congrArg (fun r => Host.Outcome.next (s.complete r)) h.runSerialize_ok

theorem exec_serialize_ok {s t : State} (hx : exec .serialize s = .next t) (hok : t.eng.statusCode = 0#4) :
    s.DestinationFits ∧ t = s.serialized.onlyStatus 0#4 := by
  obtain ⟨hfits, -⟩ | ⟨-, code, hcode, hrun⟩ := runSerialize_cases s
  · exact ⟨hfits, (Host.Outcome.next.inj (hfits.exec_serialize.symm.trans hx)).symm⟩
  · cases (exec_serialize_error hrun).symm.trans hx
    exact absurd (ResultCode.bits_eq_zero.mp hok) hcode

/-! ### Where the parts of a frame lie (R64) -/

theorem byteAt_append_left {xs : List Byte} (ys : List Byte) {i : Nat} (h : i < xs.length) :
    byteAt (xs ++ ys) i = byteAt xs i :=
  List.getD_append xs ys 0#8 i h

theorem byteAt_append_add (xs ys : List Byte) (i : Nat) : byteAt (xs ++ ys) (xs.length + i) = byteAt ys i := by
  simpa [byteAt] using List.getD_append_right xs ys 0#8 (xs.length + i) (Nat.le_add_right ..)

theorem byteAt_take {xs : List Byte} {n i : Nat} (h : i < n) : byteAt (xs.take n) i = byteAt xs i := by
  simp only [byteAt, List.getD_eq_getElem?_getD, List.getElem?_take_of_lt h]

theorem map_range_byteAt (xs : List Byte) : (List.range xs.length).map (byteAt xs) = xs := by
  apply List.ext_getElem <;> simp +contextual [byteAt]

/-- The frame of the engine `e` lies in `m` from the address `a` on. -/
structure Engine.FrameAt (c : Config) (e : Engine) (m : Memory) (a : Nat) : Prop where
  rawLength : e.fRaw.length = c.maxPayload.size
  lengthFits : e.fLength.toNat ≤ c.maxPayload.size
  bytes : ∀ i < frameSize c e.fLength.toNat, m.read (a + i) = byteAt (frameBytes c e) i

namespace Engine.FrameAt

variable {c : Config} {e : Engine} {m : Memory} {a : Nat} (h : e.FrameAt c m a)
include h

theorem bodyByte {i : Nat} (hi : i < headerSize c + e.fLength.toNat) :
    m.read (a + i) = byteAt (frameBody c e) i := by
  rw [h.bytes i (by unfold frameSize; omega), frameBytes, byteAt_append_left]
  rwa [frameBody_length h.rawLength h.lengthFits]

theorem headerByte {i : Nat} (hi : i < headerSize c) : m.read (a + i) = byteAt (headerBytes c e) i := by
  rw [h.bodyByte (by omega), frameBody, byteAt_append_left]
  rwa [headerBytes_length]

theorem payloadByte {i : Nat} (hi : i < e.fLength.toNat) : m.read (a + (headerSize c + i)) = e.viewByte i := by
  rw [h.bodyByte (by omega), frameBody, ← headerBytes_length c e, byteAt_append_add, byteAt_take hi, byteAt_rawView]

/-- R97: the two bytes after the body are its checksum, low byte first. -/
theorem checksumByte {i : Nat} (hi : i < 2) :
    m.read (a + (headerSize c + e.fLength.toNat + i)) = byteAt (enc16 (crc16 (frameBody c e))) i := by
  rw [h.bytes _ (by unfold frameSize; omega), frameBytes, ← frameBody_length h.rawLength h.lengthFits,
    byteAt_append_add]

/-- R97: the bytes before the checksum are those it is taken over. -/
theorem body : ((List.range (headerSize c + e.fLength.toNat)).map fun i => m.read (a + i)) = frameBody c e := by
  rw [List.map_congr_left fun i hi => h.bodyByte (List.mem_range.mp hi), ← frameBody_length h.rawLength h.lengthFits]
  exact map_range_byteAt _

end Engine.FrameAt

/-- R93: SERIALIZE leaves the frame at DST_ADDR. -/
theorem State.DestinationFits.frameAt {s : State} (h : s.DestinationFits) (hm : s.mem.wf = true)
    (hraw : s.eng.fRaw.length = s.cfg.maxPayload.size) :
    s.eng.FrameAt s.cfg s.serialized.mem s.eng.dstAddr.toNat where
  rawLength := hraw
  lengthFits := h.lengthFits
  bytes i hi := by
    rw [State.serialized, Memory.read_writeBytes hm, frameBytes_length hraw h.lengthFits, if_pos (by omega),
      Nat.add_sub_cancel_left]

/-- R98: SERIALIZE writes no byte outside the frame. -/
theorem State.DestinationFits.serialized_read_outside {s : State} (h : s.DestinationFits) (hm : s.mem.wf = true)
    (hraw : s.eng.fRaw.length = s.cfg.maxPayload.size) {a : Nat}
    (ha : a < s.eng.dstAddr.toNat ∨ s.eng.dstAddr.toNat + frameSize s.cfg s.eng.fLength.toNat ≤ a) :
    s.serialized.mem.read a = s.mem.read a := by
  rw [State.serialized, Memory.read_writeBytes hm, frameBytes_length hraw h.lengthFits, if_neg (by omega)]

/-! ### A frame at SRC_ADDR, as PARSE sees it -/

/-- The frame of `e` lies at SRC_ADDR of `r`, reachable and with room for it. -/
structure State.SourceHolds (r : State) (e : Engine) : Prop where
  notNull : r.eng.srcAddr ≠ 0#32
  room : frameSize r.cfg e.fLength.toNat ≤ r.eng.srcLen.toNat
  reachable : ∀ i < frameSize r.cfg e.fLength.toNat, r.srcReachable i
  frameAt : e.FrameAt r.cfg r.mem r.eng.srcAddr.toNat

/-- The engine `f` with the frame of `e` in its frame registers, as PARSE leaves them. -/
def Engine.parsedFrom (f : Engine) (c : Config) (e : Engine) : Engine :=
  Engine.withPayload c
    { f with
      fCategory := e.fCategory, fFlags := e.fFlags, fSequence := e.fSequence, fLength := e.fLength
      fCrc := crc16 (frameBody c e) }
    e.fCategory e.fLength.toNat e.viewByte

namespace State.SourceHolds

variable {r : State} {e : Engine} (h : r.SourceHolds e)
include h

/-- R95: the header registers, read back from their fixed offsets. -/
theorem header :
    r.srcByte 0 = e.fCategory ∧ r.srcByte (offSequence r.cfg) = e.fSequence ∧ r.srcLength = e.fLength ∧
      (r.cfg.hdrProfile = .extended → r.srcByte 1 = e.fFlags) := by
  have hpos := headerSize_pos r.cfg
  have hbyte : ∀ i < headerSize r.cfg, r.srcByte i = byteAt (headerBytes r.cfg e) i :=
    fun _ hi => h.frameAt.headerByte hi
  rw [State.srcLength, hbyte 0 (by omega), hbyte 1 (by omega), hbyte _ (offSequence_lt_headerSize _),
    hbyte _ (offLength_lt_headerSize _)]
  unfold headerBytes offSequence offLength
  cases r.cfg.hdrProfile <;> simp [byteAt]

theorem srcLength : r.srcLength = e.fLength := by
  obtain ⟨-, -, hlength, -⟩ := h.header
  exact hlength

theorem srcComputedCrc : r.srcComputedCrc e.fLength.toNat = crc16 (frameBody r.cfg e) :=
  congrArg crc16 h.frameAt.body

theorem srcReceivedCrc : r.srcReceivedCrc e.fLength.toNat = crc16 (frameBody r.cfg e) := by
  have hlow : r.srcByte (headerSize r.cfg + e.fLength.toNat) = _ := h.frameAt.checksumByte (i := 0) (by decide)
  have hhigh : r.srcByte (headerSize r.cfg + e.fLength.toNat + 1) = _ := h.frameAt.checksumByte (i := 1) (by decide)
  rw [State.srcReceivedCrc, hlow, hhigh]
  exact le16_enc16 _

/-- R101: such a frame passes every check of PARSE. -/
theorem sourceValid : r.SourceValid where
  notNull := h.notNull
  notShort := (minFrameSize_le_frameSize ..).trans h.room
  lengthReachable := h.reachable _ ((offLength_lt_headerSize _).trans (headerSize_lt_frameSize ..))
  lengthFits := by rw [h.srcLength]; exact h.frameAt.lengthFits
  frameFits := by rw [h.srcLength]; exact h.room
  frameReachable := by rw [h.srcLength]; exact h.reachable
  checksumMatches := by rw [h.srcLength, h.srcComputedCrc, h.srcReceivedCrc]

/-- R83, R100: PARSE takes the header of `e`, its checksum, and the payload registers Dispatch gives for the raw view. -/
theorem parsedEngine (hflags : r.cfg.hdrProfile = .minimal → e.fFlags = 0#8) :
    r.parsedEngine = r.eng.parsedFrom r.cfg e := by
  obtain ⟨hcategory, hsequence, hlength, hext⟩ := h.header
  have hview : ∀ i < e.fLength.toNat, r.srcByte (headerSize r.cfg + i) = e.viewByte i :=
    fun _ hi => h.frameAt.payloadByte hi
  unfold State.parsedEngine Engine.parsedFrom
  rw [hcategory, hsequence, hlength, h.srcReceivedCrc, withPayload_congr hview]
  split
  · rw [hflags ‹_›]
  · rw [hext ‹_›]

theorem exec_parse (hflags : r.cfg.hdrProfile = .minimal → e.fFlags = 0#8) :
    exec .parse r = .next (State.onlyStatus { r with eng := r.eng.parsedFrom r.cfg e } 0#4) := by
  rw [h.sourceValid.exec_parse, h.parsedEngine hflags]

end State.SourceHolds

/-- R100, R101: PARSE run on the bytes SERIALIZE wrote finds the serialized frame. -/
theorem State.DestinationFits.sourceHolds {s : State} (h : s.DestinationFits) (hm : s.mem.wf = true)
    (hraw : s.eng.fRaw.length = s.cfg.maxPayload.size) {t : State} (ht : t = s.serialized.onlyStatus 0#4) {n : Word}
    (hn : frameSize s.cfg s.eng.fLength.toNat ≤ n.toNat) :
    State.SourceHolds { t with eng := { t.eng with srcAddr := s.eng.dstAddr, srcLen := n } } s.eng := by
  subst ht
  exact ⟨h.notNull, hn, h.reachable, h.frameAt hm hraw⟩

/-! ### The payload registers Dispatch gives for a raw view (R86 to R90, R96) -/

section
variable {c : Config} {e : Engine} {cat : Byte} {len : Nat} (f : Engine)

/-- R65: decoding undoes the encoding, bit for bit. -/
theorem withPayload_viewByte_telemetry (hk : classify c cat len = .telemetry) (he : e.fKind = .telemetry) :
    (f.withPayload c cat len e.viewByte).fRoll = e.fRoll ∧
      (f.withPayload c cat len e.viewByte).fPitch = e.fPitch ∧
      (f.withPayload c cat len e.viewByte).fYaw = e.fYaw := by
  simp [Engine.withPayload, Engine.viewByte, hk, he, byteAt, enc32, le32_enc32]

/-- R66: decoding undoes the encoding, bit for bit. -/
theorem withPayload_viewByte_battery (hk : classify c cat len = .battery) (he : e.fKind = .battery) :
    (f.withPayload c cat len e.viewByte).fVoltageMv = e.fVoltageMv ∧
      (f.withPayload c cat len e.viewByte).fCurrentMa = e.fCurrentMa ∧
      (f.withPayload c cat len e.viewByte).fPercent = e.fPercent := by
  simp [Engine.withPayload, Engine.viewByte, hk, he, byteAt, enc16, le16_enc16]

theorem withPayload_not_telemetry (hk : classify c cat len ≠ .telemetry) (p : Nat → Byte) :
    (f.withPayload c cat len p).fRoll = 0#32 ∧ (f.withPayload c cat len p).fPitch = 0#32 ∧
      (f.withPayload c cat len p).fYaw = 0#32 :=
  ⟨if_neg hk, if_neg hk, if_neg hk⟩

theorem withPayload_not_battery (hk : classify c cat len ≠ .battery) (p : Nat → Byte) :
    (f.withPayload c cat len p).fVoltageMv = 0#16 ∧ (f.withPayload c cat len p).fCurrentMa = 0#16 ∧
      (f.withPayload c cat len p).fPercent = 0#8 :=
  ⟨if_neg hk, if_neg hk, if_neg hk⟩

/-- R89: F_RAW holds the payload bytes, and 0 after them. -/
theorem byteAt_withPayload_fRaw (hl : len ≤ c.maxPayload.size) (p : Nat → Byte) (i : Nat) :
    byteAt (f.withPayload c cat len p).fRaw i = if i < len then p i else 0#8 := by
  simp only [Engine.withPayload, byteAt_map_range]
  split_ifs with hmax hlen
  · rfl
  · rfl
  · omega
  · rfl

end

/-! ### The obligations -/

/-- Settles O27: PARSE finds the serialized frame at its SRC_ADDR, and Dispatch classifies it as the kind it was encoded
as, since the frame is consistent. -/
theorem serializeParseRoundTrip : Obligations.SerializeParseRoundTrip := by
  intro s t n hinv hcons hx hok hn
  obtain ⟨hfits, ht⟩ := exec_serialize_ok hx hok
  have heng : s.eng.Inv s.cfg := hinv.enginesInv s.eng (List.mem_cons_self ..)
  have hkind := hcons.kindFits.symm
  have hframe := hfits.frameAt hinv.memCanonical heng.rawLength
  have hholds := hfits.sourceHolds hinv.memCanonical heng.rawLength ht hn
  have hraw := byteAt_withPayload_fRaw (cat := s.eng.fCategory) (hl := hcons.lengthFits) (p := s.eng.viewByte)
  subst ht
  refine ⟨_, hholds.exec_parse heng.flagsMinimal, rfl, rfl, rfl, rfl, rfl, hkind, fun hk => ?_, fun hk => ?_,
    fun i hi => ?_, fun i hi => ?_, ?_, fun hk => ?_, fun hk => ?_⟩
  · exact withPayload_viewByte_telemetry _ (hkind.trans hk) hk
  · exact withPayload_viewByte_battery _ (hkind.trans hk) hk
  · exact (hraw _ i).trans (if_pos hi)
  · exact (hraw _ i).trans (if_neg (Nat.not_lt.mpr hi))
  · exact congrArg crc16 hframe.body.symm
  · exact withPayload_not_telemetry _ (hkind.trans_ne hk) _
  · exact withPayload_not_battery _ (hkind.trans_ne hk) _

/-- Settles O23: F_KIND is what Dispatch classified, and the length was checked. -/
theorem parseAndFillLeaveConsistentFrames : Obligations.ParseAndFillLeaveConsistentFrames := by
  intro i s t hi hx hok
  obtain ⟨hl, p, hp⟩ := exec_ok_withPayload hi hx hok
  exact ⟨hl, congrArg Engine.fKind hp⟩

/-- Settles O24: the four ways SERIALIZE fails. -/
theorem serializeChecks : Obligations.SerializeChecks := by
  refine fun s => ⟨fun hd => ?_, fun hd hl => ?_, fun hd hl hc => ?_, fun hd hl hc hr => ?_⟩
  · exact exec_serialize_error (runSerialize_null hd)
  · exact exec_serialize_error (runSerialize_tooLong hd hl)
  · exact exec_serialize_error (runSerialize_noRoom hd hl hc)
  · obtain ⟨i, hi, hr⟩ := hr
    exact exec_serialize_error (runSerialize_unreachable hd hl hc hi hr)

/-- Settles O25: the frame lies at DST_ADDR, part by part, and memory outside it is as before. -/
theorem serializeWritesFrame : Obligations.SerializeWritesFrame := by
  intro s h hm hraw
  have hframe := h.frameAt hm hraw
  have hheader : ∀ i < headerSize s.cfg, s.serialized.mem.read (s.eng.dstAddr.toNat + i) = _ :=
    fun _ hi => hframe.headerByte hi
  refine ⟨s.serialized.mem, h.exec_serialize, fun hp => ?_, fun hp => ?_, fun i hi => ?_, ⟨?_, ?_⟩,
    fun a ha => h.serialized_read_outside hm hraw ha⟩
  · rw [headerSize, headerBytes, hp] at hheader
    exact ⟨hheader 0 (by decide), hheader 1 (by decide), hheader 2 (by decide)⟩
  · rw [headerSize, headerBytes, hp] at hheader
    exact ⟨hheader 0 (by decide), hheader 1 (by decide), hheader 2 (by decide), hheader 3 (by decide)⟩
  · rw [Nat.add_assoc, hframe.payloadByte hi]
  · rw [hframe.body]
    exact hframe.checksumByte (i := 0) (by decide)
  · rw [hframe.body]
    exact hframe.checksumByte (i := 1) (by decide)

/-- Settles O26: the frame SERIALIZE left passes every check of PARSE. -/
theorem serializedFramesAreValid : Obligations.SerializedFramesAreValid := by
  intro s t n hinv hx hok hn
  obtain ⟨hfits, ht⟩ := exec_serialize_ok hx hok
  have hraw := (hinv.enginesInv s.eng (List.mem_cons_self ..)).rawLength
  exact ⟨_, (hfits.sourceHolds hinv.memCanonical hraw ht hn).sourceValid.exec_parse, rfl⟩

end Sys2Proof.Machine
end

section
/-! SUPPORT. The host's access of spec/44_host_access.md: what a read of each register returns and a write stores, when a CMD
write issues a command, what a command leaves unchanged, that a final state is idle, and that a pending command completes. -/

namespace Sys2Proof.Machine

/-! ### The registers of the table (R12, R102, R103) -/

/-- R12: every register of the table is admitted at its offset, and found there. -/
theorem regTable_regAt : ∀ p ∈ regTable, offsetAdmitted p.1 = true ∧ regAt p.1 = p.2 := by decide

/-- R103 with BUSY = 0, for a register of the table. -/
theorem exec_regRead_named {s : State} {off : Nat} (hb : s.eng.statusBusy = false) (r : Reg)
    (hr : (off, r) ∈ regTable) :
    exec (.regRead off) s = .next { s with rdata := readReg s.cfg s.eng r } := by
  obtain ⟨ho, hat⟩ := regTable_regAt _ hr
  rw [exec_regRead_idle hb ho, hat]
  rfl

/-- R102 with BUSY = 0, for a register of the table other than CMD. -/
theorem exec_regWrite_named {s : State} {off : Nat} (hb : s.eng.statusBusy = false) (v : Word) (r : Reg)
    (hr : (off, r) ∈ regTable) (hc : r ≠ .cmd) :
    exec (.regWrite off v) s = .next { s with eng := writeReg s.cfg s.eng r v } := by
  obtain ⟨ho, hat⟩ := regTable_regAt _ hr
  rw [exec_regWrite_idle hb ho, hat, State.storeReg_of_ne hc]

/-- R103, R125: a read at an admitted offset returns a free value, or the register. -/
theorem exec_regRead_admitted {off : Nat} (ho : offsetAdmitted off = true) (s : State) :
    exec (.regRead off) s = .next (if s.eng.statusBusy && !readableWhileBusy off then s.returnFree
      else s.returnData (readReg s.cfg s.eng (regAt off))) := by
  simp only [exec, execRegRead, ho, if_true]
  split <;> rfl

/-! ### Issuing a command (R104, R126) -/

/-- R126: issuing `v` conflicts with a pending command exactly where the two have a byte in common that one of them writes. -/
theorem issue_conflict_iff (s : State) (v : Word) :
    s.others.any (pendingConflict s.cfg (s.eng.issue v)) = true ↔
      ∃ f ∈ s.others, f.statusBusy = true ∧ ∃ a,
        (s.eng.issue v).WritesAt s.cfg a ∧ f.ReadsAt a ∨ (s.eng.issue v).WritesAt s.cfg a ∧ f.WritesAt s.cfg a ∨
          (s.eng.issue v).ReadsAt a ∧ f.WritesAt s.cfg a := by
  simp only [List.any_eq_true, pendingConflict, Engine.issue_statusBusy, Bool.true_and, Bool.and_eq_true,
    rangesConflict_iff]

/-! ### What a host step leaves in the host's list -/

theorem regRead_hostQueue {s t : State} {off : Nat} (hx : exec (.regRead off) s = .next t) :
    t.hostQueue = s.hostQueue := by
  obtain ⟨u, hu, hkeep⟩ := regRead_cases off s
  obtain rfl := Host.Outcome.next.inj (hu.symm.trans hx)
  rw [hkeep]

theorem regWrite_hostQueue {s t : State} {off : Nat} {v : Word} (hx : exec (.regWrite off v) s = .next t) :
    t.hostQueue = s.hostQueue := by
  obtain ⟨u, hu, hcase⟩ := regWrite_cases off v s
  obtain rfl := Host.Outcome.next.inj (hu.symm.trans hx)
  rcases hcase with ⟨r, rfl⟩ | ⟨-, r, rfl⟩ | ⟨-, rfl, -⟩ <;> rfl

theorem hostTransaction_hostQueue {s t : State} {sel : BitVec 10} {v : Word} (hx : hostTransaction sel v s = .next t) :
    t.hostQueue = s.hostQueue := by
  rcases hostTransaction_cases sel v s with ⟨off, h⟩ | ⟨off, h⟩ | h <;> rw [h] at hx
  · exact regRead_hostQueue hx
  · exact regWrite_hostQueue hx
  · cases hx
    rfl

theorem hostAccess_hostQueue {s t : State} {write : Bool} {width off : Nat} {v : Word}
    (hx : hostAccess write width off v s = .next t) : t.hostQueue = s.hostQueue := by
  by_cases hw : width = 32
  · subst hw
    rw [hostAccess_word] at hx
    cases write
    · exact regRead_hostQueue hx
    · exact regWrite_hostQueue hx
  · rw [hostAccess_bad_width hw] at hx
    cases hx
    rfl

theorem hostMemWrite_hostQueue (a : Nat) (v : Byte) (s : State) : (hostMemWrite a v s).hostQueue = s.hostQueue := by
  unfold hostMemWrite
  split <;> rfl

theorem hostMemRead_hostQueue (a : Nat) (s : State) : (hostMemRead a s).hostQueue = s.hostQueue := by
  unfold hostMemRead
  split <;> rfl

theorem State.onEngine_hostQueue_subset {s t : State} {k : Nat} {f : State → Host.Outcome State Fault Refusal}
    {q : List HostAction} (hx : s.onEngine k f = .next t) (h : ∀ u, f (s.swap k) = .next u → u.hostQueue ⊆ q) :
    t.hostQueue ⊆ q := by
  obtain ⟨u, hu, rfl⟩ := State.onEngine_next hx
  rw [State.swap_hostQueue]
  exact h u hu

/-- R70: a host action adds nothing to the list, but for a `WAIT`, which may put itself back. -/
theorem hostStep_hostQueue_subset {a : HostAction} {s t : State} (hx : hostStep a s = .next t) :
    t.hostQueue ⊆ a :: s.hostQueue := by
  have same : ∀ {u : State}, u.hostQueue = s.hostQueue → u.hostQueue ⊆ a :: s.hostQueue := fun h =>
    h ▸ List.subset_cons_self a s.hostQueue
  cases a with
  | memWrite addr v =>
    cases hx
    exact same (hostMemWrite_hostQueue addr v s)
  | memRead addr =>
    cases hx
    exact same (hostMemRead_hostQueue addr s)
  | transact base sel v =>
    refine State.onEngine_hostQueue_subset hx fun u hu => same ?_
    rw [hostTransaction_hostQueue hu, State.swap_hostQueue]
  | access base write width off v =>
    refine State.onEngine_hostQueue_subset hx fun u hu => same ?_
    rw [hostAccess_hostQueue hu, State.swap_hostQueue]
  | wait base =>
    refine State.onEngine_hostQueue_subset hx fun u hu => ?_
    cases (hostWait_eq base _).symm.trans hu
    rw [State.swap_hostQueue]
    dsimp only
    split
    · exact List.Subset.refl _
    · exact List.subset_cons_self ..
  | reset base =>
    rw [hostStep] at hx
    refine State.onEngine_hostQueue_subset hx fun u hu => same ?_
    cases hu
    rw [State.resetEngine_hostQueue, State.swap_hostQueue]

/-- R9: an enabled host action never stops the machine. -/
theorem hostStep_next {a : HostAction} {s : State} (hen : actionEnabled s a = true) : ∃ t, hostStep a s = .next t := by
  rcases hostStep_cases hen with ⟨k, -, -, u, -, h⟩ | ⟨addr, v, -, -, h⟩ | ⟨addr, -, h⟩ <;> exact ⟨_, h⟩

/-! ### Progress of a pending command (R105, R107) -/

theorem State.run_succ {s t : State} (hx : step s = .next t) (n : Nat) : s.run (n + 1) = t.run n := by
  simp only [State.run, Host.Core.run, Sys2Proof.core, hx]

theorem State.engineAt_congr {s t : State} (hc : t.cfg = s.cfg) (hl : t.engines.length = s.engines.length) (base : Nat) :
    t.engineAt base = s.engineAt base := by
  simp only [State.engineAt, hc, hl]

/-- While an engine is pending, some agent has the turn, and an engine where no turn is chosen (log entry 6). -/
theorem pickTurn_pending {s : State} {k : Nat} (hk : engineEnabled s k = true) (l : List Turn) :
    ∃ u ts, pickTurn s l = some (u, ts) ∧ (u = .host → l ≠ []) := by
  induction l with
  | nil =>
    obtain ⟨e, he, hb⟩ := engineEnabled_iff.mp hk
    obtain ⟨j, hj⟩ : ∃ j, s.engines.findIdx? (fun e => e.statusBusy) = some j :=
      Option.isSome_iff_exists.mp (List.findIdx?_isSome ▸ List.any_eq_true.mpr ⟨e, List.mem_of_getElem? he, hb⟩)
    exact ⟨.engine j, [], by simp [pickTurn, defaultTurn, hj], by simp⟩
  | cons t ts ih =>
    by_cases ht : turnEnabled s t = true
    · exact ⟨t, ts, by simp [pickTurn, ht], by simp⟩
    · obtain ⟨u, us, hu, -⟩ := ih
      exact ⟨u, us, by simp [pickTurn, ht, hu], by simp⟩

theorem step_of_pickTurn {s : State} {u : Turn} {ts : List Turn} (hc : s.cfg.wf = true) (hf : s.hostFault = none)
    (hp : pickTurn s s.turns = some (u, ts)) : step s = takeTurn u ts s := by
  simp [step, systemStep, hc, hf, hp]

/-- How many engines have a command pending. -/
def State.pendingCount (s : State) : Nat := s.engines.countP fun e => e.statusBusy

/-- The steps a pending command may have to wait for at most: those of the turns chosen, then one of each pending engine.
A host step may issue a command, but only in a turn chosen. -/
def State.patience (s : State) : Nat :=
  match s.turns with
  | [] => s.pendingCount
  | _ :: _ => s.turns.length + s.engines.length

theorem State.patience_le (s : State) : s.patience ≤ s.turns.length + s.engines.length := by
  unfold State.patience
  split
  · exact Nat.le_add_left_of_le List.countP_le_length
  · exact Nat.le_refl _

theorem State.patience_pos {s : State} {k : Nat} (hk : engineEnabled s k = true) : 0 < s.patience := by
  obtain ⟨e, he, hb⟩ := engineEnabled_iff.mp hk
  have hmem := List.mem_of_getElem? he
  unfold State.patience
  split
  · exact List.countP_pos_iff.mpr ⟨e, hmem, hb⟩
  · exact Nat.add_pos_right _ (List.length_pos_of_mem hmem)

/-- A chosen turn is used up. -/
theorem State.patience_lt_of_turn {s t : State} (hs : s.turns ≠ []) (ht : t.turns.length ≤ s.turns.length - 1)
    (hl : t.engines.length = s.engines.length) : t.patience < s.patience := by
  have hle := t.patience_le
  have heq : s.patience = s.turns.length + s.engines.length := by
    unfold State.patience
    split
    · contradiction
    · rfl
  have := List.length_pos_iff.mpr hs
  omega

/-- An engine's step leaves fewer turns, or the pending engines without that one. -/
theorem State.patience_lt_of_engine {s t : State} {j : Nat} {e : Engine} (hj : engineEnabled s j = true)
    (ht : t.turns.length ≤ s.turns.length - 1) (he : t.engines = s.engines.set j e) (hb : e.statusBusy = false) :
    t.patience < s.patience := by
  by_cases hs : s.turns = []
  · have htn : t.turns = [] := List.length_eq_zero_iff.mp (by simpa [hs] using ht)
    obtain ⟨f, hf, hfb⟩ := engineEnabled_iff.mp hj
    obtain ⟨hlt, rfl⟩ := List.getElem?_eq_some_iff.mp hf
    have hpos : 0 < s.pendingCount := List.countP_pos_iff.mpr ⟨_, List.getElem_mem hlt, hfb⟩
    have hcount : t.pendingCount = s.pendingCount - 1 := by
      simp [State.pendingCount, he, List.countP_set hlt, hfb, hb]
    simp only [State.patience, hs, htn]
    omega
  · exact State.patience_lt_of_turn hs ht (by rw [he, List.length_set])

/-- What a step from `s` to `t` makes of the command pending at engine `k`, whose registers are `e`. -/
inductive PendingStep (s t : State) (k : Nat) (e : Engine) : Prop where
  /-- R105: the engine step of that command. -/
  | completes (f : Engine) (hx : State.onEngine { s with turns := t.turns } k engineStep = .next t)
      (hk : t.engines[k]? = some f) (hb : f.statusBusy = false) (hd : f.statusDone = true)
  /-- R115: the host has broken the contract. -/
  | faults (hf : t.hostFault ≠ none)
  /-- R120: the host's reset input. -/
  | resets (base : Nat) (hk : t.engines[k]? = some (Engine.reset s.cfg)) (ha : s.engineAt base = some k)
      (hq : HostAction.reset base ∈ s.hostQueue)
  /-- Another agent's step, which brings the command's own one nearer. -/
  | waits (hk : t.engines[k]? = some e) (hf : t.hostFault = none) (hp : t.patience < s.patience) (hc : t.cfg = s.cfg)
      (hl : t.engines.length = s.engines.length) (hq : t.hostQueue ⊆ s.hostQueue)

/-- The run of `n` steps from `s` settles the command `e` pending at engine `k`: it has just completed, or the host
has broken the contract or reset the engine. -/
def State.Settles (s : State) (k : Nat) (e : Engine) (n : Nat) : Prop :=
  ∃ t, s.run n = .next t ∧
    ((∃ m u f, n = m + 1 ∧ s.run m = .next u ∧ u.engines[k]? = some e ∧
        State.onEngine { u with turns := t.turns } k engineStep = .next t ∧
        t.engines[k]? = some f ∧ f.statusBusy = false ∧ f.statusDone = true) ∨
      t.hostFault ≠ none ∨
      (t.engines[k]? = some (Engine.reset s.cfg) ∧
        ∃ base, s.engineAt base = some k ∧ HostAction.reset base ∈ s.hostQueue))

theorem pendingStep_of_engine {s t : State} {j k : Nat} {e : Engine} {ts : List Turn} (hf : s.hostFault = none)
    (he : s.engines[k]? = some e) (hj : engineEnabled s j = true) (hts : ts.length ≤ s.turns.length - 1)
    (hx : State.onEngine { s with turns := ts } j engineStep = .next t) : PendingStep s t k e := by
  obtain ⟨u, d, hu, heng, hdb, hdd, hturns, hcfg, hfault, hqueue⟩ := onEngine_engineStep ts hj
  obtain rfl : u = t := Host.Outcome.next.inj (hu.symm.trans hx)
  by_cases hjk : j = k
  · subst hjk
    refine .completes d (by rw [hturns]; exact hx) ?_ hdb hdd
    rw [heng, List.getElem?_set_self (List.getElem?_eq_some_iff.mp he).1]
  · refine .waits ?_ (hfault.trans hf) ?_ hcfg (by rw [heng, List.length_set]) (hqueue ▸ List.Subset.refl _)
    · rw [heng, List.getElem?_set_ne hjk, he]
    · exact State.patience_lt_of_engine hj (hturns ▸ hts) heng hdb

theorem pendingStep_of_host {s t : State} {k : Nat} {e : Engine} {a : HostAction} {rest : List HostAction}
    {ts : List Turn} (he : s.engines[k]? = some e) (hb : e.statusBusy = true)
    (hq : s.hostQueue = a :: rest) (hen : actionEnabled s a = true) (hne : s.turns ≠ [])
    (hts : ts.length ≤ s.turns.length - 1) (hx : hostStep a { s with turns := ts, hostQueue := rest } = .next t) :
    PendingStep s t k e := by
  rw [← actionEnabled_with s ts rest] at hen
  have hqueue : t.hostQueue ⊆ s.hostQueue := hq ▸ hostStep_hostQueue_subset hx
  obtain ⟨hlen, hturns, hcfg, hk | ⟨hk, base, rfl, ha⟩⟩ := hostStep_pending hen hx he hb
  · by_cases hfault : t.hostFault = none
    · exact .waits hk hfault (State.patience_lt_of_turn hne (hturns ▸ hts) hlen) hcfg hlen hqueue
    · exact .faults hfault
  · exact .resets base hk ha (by simp [hq])

/-- While a command is pending every step is one of the four, and none is stuck. -/
theorem step_pending {s : State} {k : Nat} {e : Engine} (hc : s.cfg.wf = true) (hf : s.hostFault = none)
    (he : s.engines[k]? = some e) (hb : e.statusBusy = true) : ∃ t, step s = .next t ∧ PendingStep s t k e := by
  have hk : engineEnabled s k = true := engineEnabled_iff.mpr ⟨e, he, hb⟩
  obtain ⟨u, ts, hp, hhost⟩ := pickTurn_pending hk s.turns
  have hen := pickTurn_enabled hp
  have hts := pickTurn_length hp
  rw [step_of_pickTurn hc hf hp]
  cases u with
  | engine j =>
    obtain ⟨t, -, hx, -⟩ := onEngine_engineStep ts hen
    exact ⟨t, hx, pendingStep_of_engine hf he hen hts hx⟩
  | host =>
    cases hq : s.hostQueue with
    | nil => simp [turnEnabled, hostEnabled, hq] at hen
    | cons a rest =>
      have ha : actionEnabled s a = true := by simpa [turnEnabled, hostEnabled, hq] using hen
      obtain ⟨t, hx⟩ := hostStep_next (s := { s with turns := ts, hostQueue := rest }) (by rwa [actionEnabled_with])
      exact ⟨t, by simpa [takeTurn, hq] using hx, pendingStep_of_host he hb hq ha (hhost rfl) hts hx⟩

/-- What settles the command after a step that left it waiting settles it. -/
theorem State.Settles.of_step {s t : State} {k n : Nat} {e : Engine} (h : t.Settles k e n) (hx : step s = .next t)
    (hc : t.cfg = s.cfg) (hl : t.engines.length = s.engines.length) (hq : t.hostQueue ⊆ s.hostQueue) :
    s.Settles k e (n + 1) := by
  obtain ⟨v, hv, hcase⟩ := h
  refine ⟨v, (State.run_succ hx n).trans hv, ?_⟩
  obtain ⟨m, u, f, rfl, hu, hrest⟩ | hf | ⟨hr, base, ha, hmem⟩ := hcase
  · exact .inl ⟨m + 1, u, f, rfl, (State.run_succ hx m).trans hu, hrest⟩
  · exact .inr (.inl hf)
  · exact .inr (.inr ⟨hc ▸ hr, base, State.engineAt_congr hc hl base ▸ ha, hq hmem⟩)

/-- R107: a pending command is settled within as many steps as the patience of its state. -/
theorem exists_settles_of_patience_le {k : Nat} {e : Engine} (hb : e.statusBusy = true) (N : Nat) :
    ∀ s : State, s.cfg.wf = true → s.hostFault = none → s.engines[k]? = some e → s.patience ≤ N →
      ∃ n ≤ N, s.Settles k e n := by
  induction N with
  | zero =>
    intro s _ _ he hN
    have := State.patience_pos (engineEnabled_iff.mpr ⟨e, he, hb⟩)
    omega
  | succ N ih =>
    intro s hc hf he hN
    obtain ⟨t, hx, hp⟩ := step_pending hc hf he hb
    have hrun : s.run 1 = .next t := State.run_succ hx 0
    cases hp with
    | completes f hx' hk hfb hfd =>
      exact ⟨1, by omega, t, hrun, .inl ⟨0, s, f, rfl, rfl, he, hx', hk, hfb, hfd⟩⟩
    | faults hfault => exact ⟨1, by omega, t, hrun, .inr (.inl hfault)⟩
    | resets base hk ha hq => exact ⟨1, by omega, t, hrun, .inr (.inr ⟨hk, base, ha, hq⟩)⟩
    | waits hk hfault hlt hcfg hl hq =>
      obtain ⟨n, hn, h⟩ := ih t (hcfg ▸ hc) hfault hk (by omega)
      exact ⟨n + 1, by omega, h.of_step hx hcfg hl hq⟩

/-! ### The obligations -/

/-- Settles O29: in each of its cases a command has changed STATUS and the registers of that case; only CRC16 has
CRC_RESULT among them, and only SERIALIZE has BYTES_WRITTEN and memory. -/
theorem commandFrame : Obligations.CommandFrame := by
  intro i s hi
  rcases exec_command_cases hi s with ⟨code, -, h⟩ | ⟨rfl, v, h⟩ | ⟨rfl, -, h⟩ | ⟨rfl, -, h⟩ | ⟨rfl, -, h⟩ <;>
    refine ⟨_, h, rfl, rfl, ResultCode.bits_le _, rfl, rfl, rfl, rfl, rfl, ?_, ?_, rfl, rfl, rfl, rfl, rfl, rfl, rfl,
      rfl⟩
  exacts [fun _ => rfl, fun _ => ⟨rfl, rfl⟩,
    fun hcrc => absurd rfl hcrc, fun _ => ⟨rfl, rfl⟩,
    fun _ => rfl, fun _ => ⟨rfl, rfl⟩,
    fun _ => rfl, fun _ => ⟨rfl, rfl⟩,
    fun _ => rfl, fun hser => absurd rfl hser]

/-- Settles O32: the offset is the register's in the table, and what the register holds is returned. -/
theorem registerReadValues : Obligations.RegisterReadValues := by
  intro s hb
  have read {off : Nat} (r : Reg) (hr : (off, r) ∈ regTable := by decide) := exec_regRead_named hb r hr
  have flags := read (off := 0x044) .fFlags
  have kind := read (off := 0x050) .fKind
  refine ⟨read .cmd, read .srcAddr, read .srcLen, read .dstAddr, read .dstCap, read .crcResult, read .bytesWritten,
    read .fCategory, fun h => ?_, fun h => ?_, read .fSequence, read .fLength, fun h => ?_, fun h => ?_, fun h => ?_,
    read .fCrc, read .fRoll, read .fPitch, read .fYaw, read .fVoltageMv, read .fCurrentMa, read .fPercent⟩
  · simp [flags, readReg, flagsRead, h]
  · simp [flags, readReg, flagsRead, h]
  all_goals simp [kind, readReg, Kind.bits, h]

/-- Settles O35: the read returns a register, or with BUSY = 1 a free value. -/
theorem registerReadFrame : Obligations.RegisterReadFrame := by
  intro s off h4 hlt
  have ho : offsetAdmitted off = true := by simp [offsetAdmitted, h4, hlt]
  refine ⟨_, exec_regRead_admitted ho s, ?_, fun hb => ?_⟩
  · split <;> rfl
  · simp [hb]

/-- Settles O37: the offset is the register's in the table, and a narrow register keeps the low bits. -/
theorem registerWriteEffects : Obligations.RegisterWriteEffects := by
  intro s v hb
  have write {off : Nat} (r : Reg) (hr : (off, r) ∈ regTable := by decide) (hc : r ≠ .cmd := by decide) :=
    exec_regWrite_named hb v r hr hc
  have flags := write (off := 0x044) .fFlags
  have kind := write (off := 0x050) .fKind
  have low8 : v.extractLsb' 0 8 = v.setWidth 8 := (BitVec.setWidth_eq_extractLsb' (by decide)).symm
  have low16 : v.extractLsb' 0 16 = v.setWidth 16 := (BitVec.setWidth_eq_extractLsb' (by decide)).symm
  rw [low8, low16]
  refine ⟨write .srcAddr, write .srcLen, write .dstAddr, write .dstCap, write .fCategory, fun h => ?_, fun h => ?_,
    write .fSequence, write .fLength, fun h => ?_, fun h => ?_, fun h => ?_, fun h => ?_, write .fCrc, write .fRoll,
    write .fPitch, write .fYaw, write .fVoltageMv, write .fCurrentMa, write .fPercent⟩
  · simp [flags, writeReg, writeFlags, h]
  · simp [flags, writeReg, writeFlags, h]
  all_goals simp [kind, writeReg, writeKind, Kind.ofBits?, h]

/-- Settles O40: the CMD write tests for a conflict, and the test is for a common byte. -/
theorem commandIssue : Obligations.CommandIssue := by
  intro s v hb
  have hx : exec (.regWrite 0x000 v) s = .next (s.issueCommand v) := exec_regWrite_idle hb rfl v
  refine ⟨fun h => ?_, fun h => ?_⟩ <;> rw [hx, State.issueCommand]
  · rw [if_neg (mt (issue_conflict_iff s v).mp h)]
    rfl
  · rw [if_pos ((issue_conflict_iff s v).mpr h)]
    rfl

/-- Settles O53: each step settles the command or uses up some of the patience, which the turns and engines bound. -/
theorem pendingCommandCompletes : Obligations.PendingCommandCompletes := by
  intro s k e h hf he hb
  exact exists_settles_of_patience_le hb _ s h.parameters hf he s.patience_le

/-- Settles O44: no agent has a step, and the host has no action left. -/
theorem finalStateIsIdle : Obligations.FinalStateIsIdle := by
  intro s hc hfinal
  have hq := hfinal.noTransaction
  have hp : pickTurn s s.turns = none := pickTurn_none (by simp [hostEnabled, hq]) hfinal.notBusy _
  simp [step, systemStep, noTurn, hc, hfinal.noHostFault, hp, hq]

end Sys2Proof.Machine
end

section
/-! SUPPORT. The exceptions of spec/60_exceptions.md: what a failed command leaves unchanged, when SERIALIZE and a pending
PARSE meet, what a step of one engine leaves of the others, and that a recorded host fault stops every agent. -/

namespace Sys2Proof.Machine

/-! ### A failed command (R112) -/

/-- A step that failed has changed STATUS and nothing else. -/
def State.OnlyStatusIfFailed (s t : State) : Prop := t.eng.statusCode ≠ 0#4 → t = s.onlyStatus t.eng.statusCode

theorem State.onlyStatusIfFailed_finish (s : State) (code : ResultCode) : s.OnlyStatusIfFailed (s.finish code) :=
  fun _ => rfl

/-- A command that made its writes has not failed. -/
theorem State.onlyStatusIfFailed_ok (s u : State) : s.OnlyStatusIfFailed (u.finish .ok) := fun h => absurd rfl h

theorem exec_command_onlyStatusIfFailed {i : Instr} (hi : IsCommand i) (s : State) :
    ∃ t, exec i s = .next t ∧ s.OnlyStatusIfFailed t := by
  rcases exec_command_cases hi s with ⟨code, -, h⟩ | ⟨-, v, h⟩ | ⟨-, -, h⟩ | ⟨-, -, h⟩ | ⟨-, -, h⟩
  · exact ⟨_, h, s.onlyStatusIfFailed_finish code⟩
  all_goals exact ⟨_, h, s.onlyStatusIfFailed_ok _⟩

/-- R106: an illegal word fails too. -/
theorem engineStep_onlyStatusIfFailed (s : State) : ∃ t, engineStep s = .next t ∧ s.OnlyStatusIfFailed t := by
  obtain ⟨i, hi, -, hx⟩ | ⟨-, hx⟩ := engineStep_cases s
  · rw [hx]
    exact exec_command_onlyStatusIfFailed hi s
  · exact ⟨_, hx, s.onlyStatusIfFailed_finish .illegalCommand⟩

/-! ### The bytes of a pending PARSE and of SERIALIZE (R123) -/

section
variable {c : Config} {e : Engine} {a : Nat}

theorem Engine.readsAt_parse (h : e.cmdLatch = 0x00000002#32) :
    e.ReadsAt a ↔ a < 2 ^ 32 ∧ e.srcAddr.toNat ≤ a ∧ a < e.srcAddr.toNat + e.srcLen.toNat := by
  simp [Engine.ReadsAt, h]

theorem Engine.not_writesAt_parse (h : e.cmdLatch = 0x00000002#32) : ¬ e.WritesAt c a := by
  simp [Engine.WritesAt, h]

theorem Engine.writesAt_serialize (h : e.cmdLatch = 0x00000004#32) :
    e.WritesAt c a ↔ a < 2 ^ 32 ∧ e.dstAddr.toNat ≤ a ∧
      a < e.dstAddr.toNat + (headerSize c + e.fLength.toNat + 2) := by
  simp [Engine.WritesAt, h]

end

/-- R126: SERIALIZE at `e` and PARSE at `f` meet only where the frame of the one meets the source buffer of the other. -/
theorem serialize_parse_meet_iff {c : Config} {e f : Engine} (he : e.cmdLatch = 0x00000004#32)
    (hf : f.cmdLatch = 0x00000002#32) :
    (∃ a, e.WritesAt c a ∧ f.ReadsAt a ∨ e.WritesAt c a ∧ f.WritesAt c a ∨ e.ReadsAt a ∧ f.WritesAt c a) ↔
      ∃ a < 2 ^ 32, f.srcAddr.toNat ≤ a ∧ a < f.srcAddr.toNat + f.srcLen.toNat ∧
        e.dstAddr.toNat ≤ a ∧ a < e.dstAddr.toNat + (headerSize c + e.fLength.toNat + 2) := by
  simp only [Engine.not_writesAt_parse hf, and_false, or_false, Engine.writesAt_serialize he, Engine.readsAt_parse hf]
  refine exists_congr fun a => ⟨?_, ?_⟩
  · rintro ⟨⟨hlt, hd, hde⟩, -, hs, hse⟩
    exact ⟨hlt, hs, hse, hd, hde⟩
  · rintro ⟨hlt, hs, hse, hd, hde⟩
    exact ⟨⟨hlt, hd, hde⟩, hlt, hs, hse⟩

/-! ### The obligations -/

/-- Settles O28: a command's cases, and the engine step's, either make no write but of STATUS or end with OK. -/
theorem failedCommandChangesOnlyStatus : Obligations.FailedCommandChangesOnlyStatus :=
  ⟨fun _ s hi => exec_command_onlyStatusIfFailed hi s, engineStep_onlyStatusIfFailed⟩

/-- Settles O41: the CMD write is a host fault where the two commands meet, and else it issues SERIALIZE. -/
theorem serializeIntoPendingParseFaults : Obligations.SerializeIntoPendingParseFaults := by
  intro s f hfault hb hothers hfb hparse
  have hmeet := serialize_parse_meet_iff (c := s.cfg) (e := { s.eng with cmdLatch := 0x00000004#32 }) rfl hparse
  obtain ⟨hissue, hconflict⟩ := commandIssue s 0x00000004#32 hb
  simp only [hothers, List.mem_singleton, exists_eq_left, hfb, true_and, hmeet] at hissue hconflict
  by_cases h : ∃ a < 2 ^ 32, f.srcAddr.toNat ≤ a ∧ a < f.srcAddr.toNat + f.srcLen.toNat ∧
      s.eng.dstAddr.toNat ≤ a ∧ a < s.eng.dstAddr.toNat + (headerSize s.cfg + s.eng.fLength.toNat + 2)
  · exact ⟨_, hconflict h, rfl, fun _ => h, fun _ => rfl⟩
  · exact ⟨_, hissue h, rfl, fun ht => by simp [hfault] at ht, fun hc => absurd hc h⟩

/-- Settles O54: the step replaces engine `k` in the list of engines, and no other. -/
theorem engineStepLeavesOthersAlone : Obligations.EngineStepLeavesOthersAlone := by
  intro s t k j ts hc hf ht hk hjk hx
  obtain ⟨u, e, hu, heng, -⟩ := onEngine_engineStep ts hk
  rw [step_engine hc hf ht hk, hu] at hx
  cases hx
  rw [heng, List.getElem?_set_ne hjk.symm]

/-- Settles O43: `step` looks at the sticky mark before any agent. -/
theorem hostFaultIsSticky : Obligations.HostFaultIsSticky := by
  intro s r hc hf
  simp [step, hc, hf]

end Sys2Proof.Machine
end

section
/-! SUPPORT. The reset and hazards of spec/70_reset_and_hazards.md: the ranges of a pending command by its word, the
host's accesses against them, register accesses while BUSY = 1, and what reset leaves. -/

namespace Sys2Proof.Machine

/-! ### The ranges of a pending command (R123) -/

section
variable {c : Config} {e : Engine} {a : Nat}

/-- CRC16 and PARSE read the whole source buffer. -/
theorem Engine.readsAt_source (h : e.cmdLatch = 0x00000001#32 ∨ e.cmdLatch = 0x00000002#32) :
    e.ReadsAt a ↔ a < 2 ^ 32 ∧ e.srcAddr.toNat ≤ a ∧ a < e.srcAddr.toNat + e.srcLen.toNat := by
  rcases h with h | h
  · simp [Engine.ReadsAt, h]
  · exact Engine.readsAt_parse h

theorem Engine.readsAt_fill (h : e.cmdLatch = 0x00000003#32) :
    e.ReadsAt a ↔ a < 2 ^ 32 ∧ e.srcAddr.toNat ≤ a ∧ a < e.srcAddr.toNat + e.fLength.toNat := by
  simp [Engine.ReadsAt, h]

theorem Engine.not_readsAt (h1 : e.cmdLatch ≠ 0x00000001#32) (h2 : e.cmdLatch ≠ 0x00000002#32)
    (h3 : e.cmdLatch ≠ 0x00000003#32) : ¬ e.ReadsAt a := by
  simp [Engine.ReadsAt, h1, h2, h3]

/-- SERIALIZE alone has a write range. -/
theorem Engine.not_writesAt (h : e.cmdLatch ≠ 0x00000004#32) : ¬ e.WritesAt c a := by
  simp [Engine.WritesAt, h]

theorem Engine.readSpan_has_eq_false : e.readSpan.has a = false ↔ ¬ e.ReadsAt a := by
  rw [← Bool.not_eq_true, Engine.readSpan_has]

theorem Engine.writeSpan_has_eq_false : (e.writeSpan c).has a = false ↔ ¬ e.WritesAt c a := by
  rw [← Bool.not_eq_true, Engine.writeSpan_has]

end

/-! ### The host's accesses to buffer memory (R126) -/

theorem State.hostWriteHazard_iff {s : State} {a : Nat} : s.hostWriteHazard a = true ↔
    (∃ e ∈ s.engines, e.statusBusy = true ∧ e.readSpan.has a = true) ∨
      ∃ e ∈ s.engines, e.statusBusy = true ∧ (e.writeSpan s.cfg).has a = true := by
  simp only [State.hostWriteHazard, List.any_eq_true, Bool.and_eq_true, Bool.or_eq_true, and_or_left, exists_or]

theorem State.hostReadHazard_iff {s : State} {a : Nat} : s.hostReadHazard a = true ↔
    ∃ e ∈ s.engines, e.statusBusy = true ∧ (e.writeSpan s.cfg).has a = true := by
  simp only [State.hostReadHazard, List.any_eq_true, Bool.and_eq_true]

theorem hostMemWrite_hazard {s : State} {a : Nat} (h : s.hostWriteHazard a = true) (v : Byte) :
    hostMemWrite a v s = s.recordFault .bufferAccessWhileBusy := if_pos h

theorem hostMemWrite_clear {s : State} {a : Nat} (h : ¬ s.hostWriteHazard a = true) (v : Byte) :
    hostMemWrite a v s = { s with mem := s.mem.write a v } := if_neg h

theorem hostMemRead_hazard {s : State} {a : Nat} (h : s.hostReadHazard a = true) :
    hostMemRead a s = s.recordFault .bufferAccessWhileBusy := if_pos h

theorem hostMemRead_clear {s : State} {a : Nat} (h : ¬ s.hostReadHazard a = true) :
    hostMemRead a s = { s with hostByte := s.mem.read a } := if_neg h

/-! ### Register accesses while BUSY = 1 (R124, R125) -/

theorem offsetAdmitted_iff {off : Nat} : offsetAdmitted off = true ↔ off % 4 = 0 ∧ off < 0x200 := by
  simp [offsetAdmitted]

theorem readableWhileBusy_iff {off : Nat} : readableWhileBusy off = true ↔ off = 0x004 ∨ off = 0x008 := by
  simp [readableWhileBusy]

theorem exec_regRead_busy {s : State} {off : Nat} (hb : s.eng.statusBusy = true) (ho : offsetAdmitted off = true)
    (hr : ¬ readableWhileBusy off = true) : exec (.regRead off) s = .next s.returnFree := by
  rw [exec_regRead_admitted ho, if_pos (by simp [hb, hr])]

theorem exec_regWrite_busy {s : State} {off : Nat} (hb : s.eng.statusBusy = true) (ho : offsetAdmitted off = true)
    (v : Word) : exec (.regWrite off v) s = .next (s.recordFault .registerWriteWhileBusy) := by
  simp [exec, execRegWrite, ho, hb]

/-! ### Reset (R120) -/

/-- R118: reset at engine `k` replaces that engine alone, and leaves all but the engines as it is. -/
theorem State.onEngine_resetEngine {s : State} {k : Nat} (hk : k < s.engines.length) :
    ∃ t, (s.onEngine k fun u => .next u.resetEngine) = .next t ∧ t = { s with eng := t.eng, others := t.others } ∧
      t.engines = s.engines.set k (Engine.reset s.cfg) := by
  refine ⟨_, State.onEngine_eq rfl, ?_, ?_⟩
  · obtain ⟨e, l, hfocus, -⟩ := s.swap_rest k
    obtain ⟨e', l', hback, -⟩ := (s.swap k).resetEngine.swap_rest k
    rw [hback, hfocus]
    rfl
  · rw [State.swap_engines_set (u := (s.swap k).resetEngine) hk rfl, State.resetEngine_eng, State.swap_cfg]

theorem Engine.reset_consistent (c : Config) : (Engine.reset c).Consistent c where
  lengthFits := Nat.zero_le _
  kindFits := (classify_eq_raw_iff.mpr ⟨fun h => Nat.not_succ_le_zero _ h.2, fun h => Nat.not_succ_le_zero _ h.2⟩).symm

theorem State.resetWith_inv {c : Config} (hc : c.wf = true) (hw : c.windowBases.length = 1) :
    (State.resetWith c).Inv where
  parameters := hc
  windows := hw
  memCanonical := rfl
  memExists := fun _ h => absurd h List.not_mem_nil
  enginesInv := List.forall_mem_singleton.mpr (Engine.reset_inv c)
  rangesApart := List.pairwise_singleton ..

theorem State.resetWith_final (c : Config) : (State.resetWith c).Final where
  noTransaction := rfl
  notBusy := List.forall_mem_singleton.mpr rfl
  noHostFault := rfl

/-! ### The obligations -/

/-- Settles O45: the spans are the bytes read and written, and only SERIALIZE's word has a write range. -/
theorem pendingRanges : Obligations.PendingRanges := by
  intro c e a
  simp only [Engine.readSpan_has, Engine.writeSpan_has, Engine.readSpan_has_eq_false, Engine.writeSpan_has_eq_false]
  refine ⟨fun h => ⟨(Engine.readsAt_source h).trans and_rotate, Engine.not_writesAt ?_⟩,
    fun h => ⟨(Engine.readsAt_fill h).trans and_rotate, Engine.not_writesAt (by simp [h])⟩,
    fun h => ⟨Engine.not_readsAt (by simp [h]) (by simp [h]) (by simp [h]),
      (Engine.writesAt_serialize h).trans and_rotate⟩,
    fun h1 h2 h3 h4 => ⟨Engine.not_readsAt h1 h2 h3, Engine.not_writesAt h4⟩⟩
  rcases h with h | h <;> simp [h]

/-- Settles O46: the step is the access, which the hazard test turns into a host fault. -/
theorem hostBufferAccess : Obligations.HostBufferAccess := by
  intro s a v ts rest hc hf ht ha
  refine ⟨fun hq h => ?_, fun hq h => ?_, fun hq h => ?_, fun hq h => ?_⟩ <;> rw [step_host hc hf ht hq ha]
  · exact congrArg _ (hostMemWrite_hazard (s := { s with turns := ts, hostQueue := rest })
      (State.hostWriteHazard_iff.mpr h) v)
  · exact congrArg _ (hostMemWrite_clear (s := { s with turns := ts, hostQueue := rest })
      (mt State.hostWriteHazard_iff.mp h) v)
  · exact congrArg _ (hostMemRead_hazard (s := { s with turns := ts, hostQueue := rest })
      (State.hostReadHazard_iff.mpr h))
  · exact congrArg _ (hostMemRead_clear (s := { s with turns := ts, hostQueue := rest })
      (mt State.hostReadHazard_iff.mp h))

/-- Settles O49: the reset input replaces the registers of the engine it names. -/
theorem resetSetsEveryRegister : Obligations.ResetSetsEveryRegister := by
  intro s base k ts rest hc hf ht hq hk
  have hk' : State.engineAt { s with turns := ts, hostQueue := rest } base = some k := hk
  rw [step_host hc hf ht hq (by simp [actionEnabled, hk]), hostStep, hk', Option.getD_some]
  exact State.onEngine_resetEngine (s := { s with turns := ts, hostQueue := rest }) (State.engineAt_lt hk)

/-- Settles O34: the offset is admitted and names neither STATUS nor CONFIG. -/
theorem readsWhileBusyAreFree : Obligations.ReadsWhileBusyAreFree := by
  intro s off hb h4 hlt hstatus hconfig
  exact exec_regRead_busy hb (offsetAdmitted_iff.mpr ⟨h4, hlt⟩) (by simp [readableWhileBusy_iff, hstatus, hconfig])

/-- Settles O36: the test of BUSY comes before the register is looked up. -/
theorem registerWriteWhileBusyFaults : Obligations.RegisterWriteWhileBusyFaults := by
  intro s off v hb h4 hlt
  exact exec_regWrite_busy hb (offsetAdmitted_iff.mpr ⟨h4, hlt⟩) v

/-- Settles O50: an empty frame is RAW, and one engine with no command pending conflicts with none. -/
theorem resetStateIsConsistent : Obligations.ResetStateIsConsistent :=
  ⟨fun c hc hw => ⟨State.resetWith_inv hc hw, Engine.reset_consistent c, State.resetWith_final c⟩,
    State.resetWith_inv (by decide) rfl⟩

end Sys2Proof.Machine
end
